-- ==== Sys2Proof/Word.lean ====
section
/-! DEFINITION. The word types of FHX. `zext_N` of the spec (00_scope.md R9) is `BitVec.setWidth`, `a ++ b` is
`BitVec.append`, `v[hi:lo]` (R8) is `BitVec.extractLsb' lo (hi-lo+1)` and `v[i]` is `BitVec.getLsbD`.
`sext_N` (`BitVec.signExtend`) is never used: "FHX never sign-extends". -/

namespace Sys2Proof

/-- A 32-bit register word: the data width of the port (00_scope.md R7). -/
abbrev Word := BitVec 32

/-- A raw binary64 word, or another 64-bit logical register (00_scope.md R7, R10). -/
abbrev DWord := BitVec 64

/-- An 8-bit character code (00_scope.md R15). -/
abbrev Byte := BitVec 8

/-- A byte offset in the 256-byte register window (20_memory.md R50). -/
abbrev Offset := BitVec 8

end Sys2Proof
end

