-- ==== Sys2Proof/Config.lean ====
section
/-! DEFINITION. The parameters of 00_scope.md R7: the fixed ones as constants, the OPEN ones as an argument
(`OpenParams`), as R7 asks ("A model takes each OPEN parameter as an argument"). FHX leaves no value free, so there
is no uninterpreted constant here. -/

namespace Sys2Proof.Config

/-- HEX32_LEN: characters in a binary32 string (R7). -/
@[simp] abbrev hex32Len : Nat := 8

/-- HEX64_LEN: characters in a binary64 string (R7). -/
@[simp] abbrev hex64Len : Nat := 16

/-- HEXBUF_CAP: capacity in bytes of HEXIN and of HEXOUT (R7, decision D5). -/
@[simp] abbrev hexBufCap : Nat := 16

/-- DIFF_MAX_LEN: the longest DIFF operand in bits (R7, decision D9). -/
@[simp] abbrev diffMaxLen : Nat := 64

/-- The register window's size in bytes (R7, decision D2). -/
@[simp] abbrev windowSize : Nat := 256

/-- ACCEPT_UPPERCASE: whether DEC accepts 'A'–'F' (R7, fixed: yes, decision D6). -/
@[simp] abbrev acceptUppercase : Bool := true

/-- BUS_PROTOCOL: the handshakes 20_memory.md R68 names. -/
inductive BusProtocol where
  | apb
  | axiLite
  | wishbone
  | other
  deriving DecidableEq, Repr

/-- RESET_SAMPLING: how rst acts with respect to clk (R7, decision D15). -/
inductive ResetSampling where
  | synchronous
  | asynchronous
  deriving DecidableEq, Repr

/-- The OPEN parameters of R7. "No rule of this spec depends on an OPEN parameter's value": the step function takes
none of them. `baseAddr` is used by the host's address map alone (`Machine.busRequest`, 20_memory.md R50). -/
structure OpenParams where
  /-- BASE_ADDR, where the window sits in the host's address space (decision D3). -/
  baseAddr : Nat
  /-- CMD_LATENCY, clock cycles a command takes inside its CMD write (decision D14). -/
  cmdLatency : Nat
  /-- BUS_PROTOCOL (decision D2). -/
  busProtocol : BusProtocol
  /-- RESET_SAMPLING (decision D15). -/
  resetSampling : ResetSampling
  deriving DecidableEq, Repr

end Sys2Proof.Config
end

