-- ==== Sys2Proof/Syntax.lean ====
section
/-! DEFINITION. The commands of FHX: one constructor per row of spec/opcode_table.json (30_encoding.md R82). -/

namespace Sys2Proof

/-- A command (30_encoding.md R82). "The word has no register-number field, no immediate field and no mode field"
(R81): no constructor has an argument. -/
inductive Instr where
  /-- ENC32: binary32 word to 8 hex characters (40_codec.md R103). -/
  | enc32
  /-- ENC64: binary64 word to 16 hex characters (40_codec.md R104). -/
  | enc64
  /-- DEC32: 8 hex characters to a binary32 word (40_codec.md R108). -/
  | dec32
  /-- DEC64: 16 hex characters to a binary64 word (40_codec.md R109). -/
  | dec64
  /-- EXT32: fields of a binary32 word (41_extract.md R141). -/
  | ext32
  /-- EXT64: fields of a binary64 word (41_extract.md R142). -/
  | ext64
  /-- DIFF: mismatch of two binary strings (42_diff.md R160). -/
  | diff
  /-- CMP32: mismatch of two binary32 words (42_diff.md R162). -/
  | cmp32
  /-- CMP64: mismatch of two binary64 words (42_diff.md R163). -/
  | cmp64
  /-- RTV32: round-trip self-check of a binary32 word (40_codec.md R120). -/
  | rtv32
  /-- RTV64: round-trip self-check of a binary64 word (40_codec.md R121). -/
  | rtv64
  deriving DecidableEq, Repr

end Sys2Proof
end

