-- ==== Sys2Proof/WellFormed.lean ====
section
/-! DEFINITION. Well-formedness. A command carries no operand (30_encoding.md R81, R84), so every term of `Instr` is
well formed; what can be ill formed is the 32-bit word that is to stand for a command. -/

namespace Sys2Proof

/-- Every command is well formed: it has no operand field that could be out of range (30_encoding.md R81). -/
def Instr.wellFormed : Instr → Bool
  | .enc32 | .enc64 | .dec32 | .dec64 | .ext32 | .ext64 | .diff | .cmp32 | .cmp64 | .rtv32 | .rtv64 => true

/-- Field RSV, bits 31:4, "reserved, must be 0" (30_encoding.md R81). -/
def reservedBitsClear (w : Word) : Bool := w.extractLsb' 4 28 == 0

/-- Field OP, bits 3:0, names a command: 0x1–0xB (30_encoding.md R82; 0x0 and 0xC–0xF are reserved, R83). -/
def opcodeDefined (w : Word) : Bool :=
  let op := w.extractLsb' 0 4
  decide (1 ≤ op) && decide (op ≤ 0xB)

/-- A command word that stands for a command; "Any word not in the column is illegal" (30_encoding.md R82). -/
def wellFormedWord (w : Word) : Bool := reservedBitsClear w && opcodeDefined w

end Sys2Proof
end

