-- ==== Sys2Proof/Decode.lean ====
section
/-! DEFINITION. From command words to commands and back (30_encoding.md R80–R83). -/

namespace Sys2Proof

/-- Why a word is no command (30_encoding.md R83). Both reasons are ILLEGAL_COMMAND to the host. -/
inductive DecodeError where
  /-- One of bits 31:4 is set. -/
  | reservedBits
  /-- OP is 0x0 or 0xC–0xF. -/
  | reservedOpcode (op : BitVec 4)
  deriving DecidableEq, Repr

/-- The command that the low four bits of a word name (30_encoding.md R82's column OP). -/
def opcodeOf (op : BitVec 4) : Except DecodeError Instr :=
  match op with
  | 0x1#4 => .ok .enc32
  | 0x2#4 => .ok .enc64
  | 0x3#4 => .ok .dec32
  | 0x4#4 => .ok .dec64
  | 0x5#4 => .ok .ext32
  | 0x6#4 => .ok .ext64
  | 0x7#4 => .ok .diff
  | 0x8#4 => .ok .cmp32
  | 0x9#4 => .ok .cmp64
  | 0xA#4 => .ok .rtv32
  | 0xB#4 => .ok .rtv64
  | _ => .error (.reservedOpcode op)

/-- The decoder of 30_encoding.md R80: the reserved bits are looked at first, then OP. -/
def decode (w : Word) : Except DecodeError Instr :=
  if w.extractLsb' 4 28 ≠ 0 then .error .reservedBits
  else opcodeOf (w.extractLsb' 0 4)

/-- The command word of each command (30_encoding.md R82's column "word"). -/
def encode : Instr → Word
  | .enc32 => 0x0000_0001#32
  | .enc64 => 0x0000_0002#32
  | .dec32 => 0x0000_0003#32
  | .dec64 => 0x0000_0004#32
  | .ext32 => 0x0000_0005#32
  | .ext64 => 0x0000_0006#32
  | .diff => 0x0000_0007#32
  | .cmp32 => 0x0000_0008#32
  | .cmp64 => 0x0000_0009#32
  | .rtv32 => 0x0000_000A#32
  | .rtv64 => 0x0000_000B#32

/-- The word that the host's opcode-table number stands for: `nbits` bits of `w`, zeros above them. A command word is
one 32-bit write, so there is no byte order to lay out (30_encoding.md R81). -/
def tableWord (nbits w : Nat) : Word := BitVec.ofNat 32 (w % 2 ^ nbits)

/-- What the decoder reads from the table's number. "Its length is always one 32-bit word" (30_encoding.md R81):
a number of more than 32 bits is no command (log entry 15, DESIGN CHOICE). -/
def decodeTableWord (nbits w : Nat) : Option Instr :=
  if nbits ≤ 32 then (decode (tableWord nbits w)).toOption else none

end Sys2Proof
end

