-- ==== Sys2Proof/Machine/State.lean ====
section
/-! DEFINITION. The state of FHX as plain data: the registers of 10_state.md R39 and the port of 20_memory.md R68. -/

namespace Sys2Proof.Machine

/-- Why the machine would stop with a fault. No constructor: no rule of the spec stops FHX. A command error is
reported in STATUS and a bad access by an error response, and the machine goes on (60_exceptions.md R190, R191,
20_memory.md R55). Safe: nothing is hidden behind a fault (log entries 1 and 14). -/
inductive Fault where
  deriving DecidableEq, Repr

/-- Why the model would give an instruction no meaning. -/
inductive Refusal where
  /-- Raised by an arm of `exec` for an instruction that has no meaning yet; no arm raises it. Safe. -/
  | notModelled (mnemonic : String)
  deriving DecidableEq, Repr

/-- The outcomes that STATUS.CODE names (10_state.md R28). Codes 6–15 are reserved and never produced. -/
inductive StatusCode where
  | idle
  | ok
  | invalidEncoding
  | illegalCommand
  | illegalOperand
  | roundtripMismatch
  deriving DecidableEq, Repr

/-- The 26 registers of the window by name (10_state.md R24, R38). -/
inductive Reg where
  | cmd | status
  | opaLo | opaHi | opbLo | opbHi
  | dlens | hexLen
  | hexIn0 | hexIn1 | hexIn2 | hexIn3
  | hexOut0 | hexOut1 | hexOut2 | hexOut3 | hexOutLen
  | resLo | resHi
  | fsign | fexp | fmantLo | fmantHi
  | dmaskLo | dmaskHi | dlen
  deriving DecidableEq, Repr

/-- How the host may use a register (10_state.md R24). Reserved slots (RAZ/WI) have no name in `Reg`. -/
inductive RegAccess where
  | rw
  | ro
  deriving DecidableEq, Repr

/-- One access on the request ports of 20_memory.md R68. -/
structure Request where
  /-- req_write: 1 for a write, 0 for a read. -/
  write : Bool
  /-- req_addr: byte offset in the window. -/
  addr : Offset
  /-- req_size: access size in bytes, as log2. -/
  size : BitVec 3
  /-- req_wdata: write data. -/
  wdata : Word
  deriving DecidableEq, Repr

/-- What FHX answers to one access (20_memory.md R68). rsp_rdata is "meaningful only when rsp_err = 0", so an error
response holds no data; a write's response holds none either (log entry 16). -/
inductive Response where
  /-- A read that was taken: rsp_err = 0, rsp_rdata = `value`. -/
  | data (value : Word)
  /-- A write that was taken, and the command it ran completed: rsp_err = 0. -/
  | done
  /-- `raise BusError(off)`: rsp_err = 1 (20_memory.md R55). -/
  | busError (off : Offset)
  deriving DecidableEq, Repr

/-- One thing that happens at the port. -/
inductive Event where
  /-- The host issues an access. -/
  | access (q : Request)
  /-- rst rises, while `underWay` (if any) is an access that FHX has not yet completed (70_reset_and_hazards.md R221). -/
  | rstRise (underWay : Option Request)
  /-- rst returns to 0. -/
  | rstFall
  deriving DecidableEq, Repr

/-- The registers: the tuple of 10_state.md R39, field by field. "The complete architectural state is the 26 registers
of rule R24" (R38). -/
structure Regs where
  /-- CMD (R27). -/
  cmd : Word
  /-- STATUS (R28); its fields are read by `statusCode`, `statusLenBad`, `statusCharBad`, `statusFirstBad`. -/
  status : Word
  /-- OPA = OPA_HI ++ OPA_LO (R29). -/
  opa : DWord
  /-- OPB = OPB_HI ++ OPB_LO (R29). -/
  opb : DWord
  /-- DLENS.LA (R30). -/
  la : BitVec 7
  /-- DLENS.LB (R30). -/
  lb : BitVec 7
  /-- HEXLEN.LEN (R31). -/
  hexLen : BitVec 8
  /-- HEXIN, character k at index k (R31). -/
  hexIn : Vector Byte 16
  /-- HEXOUT, character k at index k (R32). -/
  hexOut : Vector Byte 16
  /-- HEXOUT_LEN (R32). -/
  hexOutLen : BitVec 5
  /-- RES = RES_HI ++ RES_LO (R33). -/
  res : DWord
  /-- FSIGN (R34). -/
  fsign : BitVec 1
  /-- FEXP (R34). -/
  fexp : BitVec 11
  /-- FMANT = FMANT_HI[19:0] ++ FMANT_LO (R34). -/
  fmant : BitVec 52
  /-- DMASK = DMASK_HI ++ DMASK_LO (R35). -/
  dmask : DWord
  /-- DLEN (R35). -/
  dlen : BitVec 7
  deriving DecidableEq, Repr

/-- The machine: its registers and its port. -/
structure State where
  /-- The architectural state (10_state.md R39). -/
  regs : Regs
  /-- The level of the rst input (20_memory.md R68). -/
  rst : Bool
  /-- The model's own field: what is still to arrive at the port, in arrival order (20_memory.md R61; log entry 2). -/
  pending : List Event
  /-- The model's own field: the response the last step gave, if it gave one (20_memory.md R68; log entry 3). -/
  resp : Option Response
  deriving DecidableEq, Repr

/-- "At reset every register of 10_state.md rule R24 takes the value 0x0000_0000" (70_reset_and_hazards.md R220). -/
def Regs.reset : Regs where
  cmd := 0
  status := 0
  opa := 0
  opb := 0
  la := 0
  lb := 0
  hexLen := 0
  hexIn := Vector.replicate 16 0
  hexOut := Vector.replicate 16 0
  hexOutLen := 0
  res := 0
  fsign := 0
  fexp := 0
  fmant := 0
  dmask := 0
  dlen := 0

/-- The machine right after reset: every register 0 (70_reset_and_hazards.md R220), rst back at 0 (R221, log entry 4),
"it only waits for host accesses" (R222): none has arrived and none has been answered (log entries 2 and 3). -/
def State.reset : State where
  regs := Regs.reset
  rst := false
  pending := []
  resp := none

end Sys2Proof.Machine
end

