-- ==== Sys2Proof/Machine/Chars.lean ====
section
/-! DEFINITION. Characters, character buffers and hex strings (00_scope.md R15, 10_state.md R31, R32, 40_codec.md
R101, R102, R105, R107). -/

namespace Sys2Proof.Machine

/-- `hexchar(v)`: the lowercase hexadecimal digit of a 4-bit value (40_codec.md R101). -/
def hexchar (v : BitVec 4) : Byte :=
  if v < 10 then 0x30 + v.setWidth 8 else 0x61 + (v.setWidth 8 - 10)

/-- `hexval(c)`: the digit value of a character, or `none` for invalid (40_codec.md R105). 'A'–'F' count under
ACCEPT_UPPERCASE, which is fixed to yes (decision D6). -/
def hexval (c : Byte) : Option (BitVec 4) :=
  if 0x30 ≤ c ∧ c ≤ 0x39 then some ((c - 0x30).setWidth 4)
  else if 0x61 ≤ c ∧ c ≤ 0x66 then some ((c - 0x61 + 10).setWidth 4)
  else if Config.acceptUppercase ∧ 0x41 ≤ c ∧ c ≤ 0x46 then some ((c - 0x41 + 10).setWidth 4)
  else none

/-- `hexval0`: "hexval, with invalid read as 0" (40_codec.md R120). -/
def hexval0 (c : Byte) : BitVec 4 := (hexval c).getD 0

/-- `lower`: 'A'–'F' to 'a'–'f', "every other character alone" (40_codec.md R113). -/
def lower (c : Byte) : Byte := if 0x41 ≤ c ∧ c ≤ 0x46 then c + 0x20 else c

/-- Character k of a 16-byte buffer, `x[HEXIN].c[k]` (10_state.md R31); a buffer has no character past 15. -/
def charAt (buf : Vector Byte 16) (k : Nat) : Byte := if h : k < 16 then buf[k] else 0

/-- Word i of a buffer: character k is bits [8·(k mod 4)+7 : 8·(k mod 4)] of word k div 4 (10_state.md R31, R32). -/
def bufWord (buf : Vector Byte 16) (i : Nat) : Word :=
  (charAt buf (4 * i)).setWidth 32 ||| ((charAt buf (4 * i + 1)).setWidth 32 <<< 8) |||
    ((charAt buf (4 * i + 2)).setWidth 32 <<< 16) ||| ((charAt buf (4 * i + 3)).setWidth 32 <<< 24)

/-- The buffer after word i is written (10_state.md R31). -/
def setBufWord (buf : Vector Byte 16) (i : Nat) (v : Word) : Vector Byte 16 :=
  Vector.ofFn fun k => if k.val / 4 = i then v.extractLsb' (8 * (k.val % 4)) 8 else buf[k]

/-- `enc_N(R)[k] = hexchar(R[4*(N-1-k)+3 : 4*(N-1-k)])` (40_codec.md R102, 20_memory.md R52). -/
def encChar (n : Nat) {w : Nat} (r : BitVec w) (k : Nat) : Byte := hexchar (r.extractLsb' (4 * (n - 1 - k)) 4)

/-- `enc_N(R)` as a string (40_codec.md R102). -/
def encString (n : Nat) {w : Nat} (r : BitVec w) : List Byte := (List.range n).map (encChar n r)

/-- `enc_N(R)` laid out in a character buffer, 0x00 from character N on (40_codec.md R103, R104). -/
def encBuf (n : Nat) {w : Nat} (r : BitVec w) : Vector Byte 16 :=
  Vector.ofFn fun k => if k.val < n then encChar n r k.val else 0

/-- `dec_N(c)`: OR over k < N of `zext(hexval(c[k])) << 4*(N-1-k)`, w bits wide (40_codec.md R107; with `hexval0`, as
in R120, so that it is total: the two agree on valid characters). -/
def decValue (w n : Nat) (buf : Vector Byte 16) : BitVec w :=
  (List.range n).foldl
    (fun acc k => acc ||| ((hexval0 (charAt buf k)).setWidth w <<< (4 * (n - 1 - k)))) 0#w

/-- `chars_ok`: the first N characters are hex digits (40_codec.md R120, R121). -/
def charsOk (n : Nat) (buf : Vector Byte 16) : Bool :=
  (List.range n).all fun k => (hexval (charAt buf k)).isSome

end Sys2Proof.Machine
end

