-- ==== Sys2Proof/Machine/Operands.lean ====
section
/-! DEFINITION. The operands of the commands (30_encoding.md R84, 10_state.md R29–R31), the 32-bit halves of the 64-bit
registers (20_memory.md R53) and the field slices (41_extract.md R140). "No operand is sign-extended, scaled or
shifted when it is read" (R84). -/

namespace Sys2Proof.Machine

/-- Bits 31:0 of a 64-bit register: its LO slot (20_memory.md R53). -/
def loHalf (v : DWord) : Word := v.extractLsb' 0 32

/-- Bits 63:32 of a 64-bit register: its HI slot (20_memory.md R53). -/
def hiHalf (v : DWord) : Word := v.extractLsb' 32 32

/-- A 64-bit register after a write of its LO slot. -/
def withLo (v : DWord) (lo : Word) : DWord := hiHalf v ++ lo

/-- A 64-bit register after a write of its HI slot. -/
def withHi (v : DWord) (hi : Word) : DWord := hi ++ loHalf v

/-- The binary32 operand `x[OPA_LO]`: "A 32-bit command reads only x[OPA_LO]" (10_state.md R29). -/
def Regs.opa32 (g : Regs) : Word := loHalf g.opa

/-- The binary32 operand `x[OPB_LO]` (10_state.md R29). -/
def Regs.opb32 (g : Regs) : Word := loHalf g.opb

/-- `(R >> s) & mask` with a mask of `width` ones (41_extract.md R140). -/
def maskedField {w : Nat} (r : BitVec w) (shift width : Nat) : BitVec w :=
  (r >>> shift) &&& BitVec.ofNat w (2 ^ width - 1)

/-- DIFF's mask bits: `M[n-1-i] <- A[LA-1-i] ^ B[LB-1-i]` for i in 0 .. n-1, every other bit 0 (42_diff.md R160). -/
def diffMask (a b : DWord) (la lb n : Nat) : DWord :=
  (List.range n).foldl
    (fun m i =>
      m ||| ((BitVec.ofBool (a.getLsbD (la - 1 - i) ^^ b.getLsbD (lb - 1 - i))).setWidth 64 <<< (n - 1 - i))) 0#64

end Sys2Proof.Machine
end

