-- ==== Sys2Proof/Machine/Flags.lean ====
section
/-! DEFINITION. STATUS, the only flag state (10_state.md R28, R36), and the check that sets DEC's cause bits
(40_codec.md R106). -/

namespace Sys2Proof.Machine

/-- The CODE value of an outcome (10_state.md R28). -/
def StatusCode.bits : StatusCode → BitVec 4
  | .idle => 0
  | .ok => 1
  | .invalidEncoding => 2
  | .illegalCommand => 3
  | .illegalOperand => 4
  | .roundtripMismatch => 5

/-- STATUS as a word: CODE 3:0, LEN_BAD 4, CHAR_BAD 5, FIRST_BAD 11:8, the rest 0 (10_state.md R28). -/
def statusWord (code : StatusCode) (lenBad charBad : Bool) (firstBad : BitVec 4) : Word :=
  0#20 ++ firstBad ++ 0#2 ++ BitVec.ofBool charBad ++ BitVec.ofBool lenBad ++ code.bits

/-- STATUS.CODE (10_state.md R28). -/
def statusCode (w : Word) : BitVec 4 := w.extractLsb' 0 4

/-- STATUS.LEN_BAD (10_state.md R28). -/
def statusLenBad (w : Word) : Bool := w.getLsbD 4

/-- STATUS.CHAR_BAD (10_state.md R28). -/
def statusCharBad (w : Word) : Bool := w.getLsbD 5

/-- STATUS.FIRST_BAD (10_state.md R28). -/
def statusFirstBad (w : Word) : BitVec 4 := w.extractLsb' 8 4

/-- STATUS after a command that completed without error: CODE = OK, every other field 0 (10_state.md R28). -/
def statusOk : Word := statusWord .ok false false 0

/-- What `check_N` finds (40_codec.md R106). -/
structure HexCheck where
  /-- LEN_BAD. -/
  lenBad : Bool
  /-- CHAR_BAD. -/
  charBad : Bool
  /-- FIRST_BAD. -/
  firstBad : BitVec 4
  deriving DecidableEq, Repr

/-- `scan = min(LEN, 16)`: how many characters are examined, "even when LEN is wrong" (40_codec.md R106, D18). -/
def scanLen (len : BitVec 8) : Nat := min len.toNat 16

/-- The lowest index below `scan` whose character is not a hex digit: `min(BAD)`, if BAD is not empty (R106). -/
def firstBadIndex (len : BitVec 8) (buf : Vector Byte 16) : Option Nat :=
  (List.range (scanLen len)).find? fun k => (hexval (charAt buf k)).isNone

/-- `check_N(LEN, c)` (40_codec.md R106). -/
def checkHex (n : Nat) (len : BitVec 8) (buf : Vector Byte 16) : HexCheck where
  lenBad := len.toNat != n
  charBad := (firstBadIndex len buf).isSome
  firstBad := BitVec.ofNat 4 ((firstBadIndex len buf).getD 0)

/-- `valid_N = not LEN_BAD and not CHAR_BAD` (40_codec.md R106). -/
def HexCheck.valid (c : HexCheck) : Bool := !c.lenBad && !c.charBad

end Sys2Proof.Machine
end

