-- ==== Sys2Proof/Machine/Ops.lean ====
section
/-! DEFINITION. The named operations over the registers: what a command writes, `raise Status`, and the register
window as the host reads and writes it (10_state.md R24–R35, 20_memory.md R51–R57, 60_exceptions.md R190). -/

namespace Sys2Proof.Machine

/-! ### What commands write -/

/-- HEXOUT and HEXOUT_LEN (10_state.md R32). -/
def Regs.putHexOut (g : Regs) (buf : Vector Byte 16) (len : BitVec 5) : Regs :=
  { g with hexOut := buf, hexOutLen := len }

/-- RES, all 64 bits at once (10_state.md R33). -/
def Regs.putRes (g : Regs) (v : DWord) : Regs := { g with res := v }

/-- FSIGN, FEXP and FMANT (10_state.md R34). -/
def Regs.putFields (g : Regs) (sign : BitVec 1) (exponent : BitVec 11) (mantissa : BitVec 52) : Regs :=
  { g with fsign := sign, fexp := exponent, fmant := mantissa }

/-- DMASK and DLEN (10_state.md R35). -/
def Regs.putDiff (g : Regs) (mask : DWord) (len : BitVec 7) : Regs := { g with dmask := mask, dlen := len }

/-- `raise Status(code, fields)`, FHX's one way to take an error: it writes all of STATUS and no other register
(60_exceptions.md R190). Nothing is saved, no mode changes and there is no handler to go to (R195), so there is
nothing to return from (R196): "The next command simply overwrites STATUS". -/
def Regs.raiseStatus (g : Regs) (code : StatusCode) (lenBad charBad : Bool) (firstBad : BitVec 4) : Regs :=
  { g with status := statusWord code lenBad charBad firstBad }

/-- The end of a command without error: STATUS <- {CODE = OK}, "fields it does not name are written 0" (R28). -/
def Regs.complete (g : Regs) : Regs := { g with status := statusOk }

/-- What an illegal command word does beside being stored in CMD (30_encoding.md R83). -/
def Regs.illegalCommand (g : Regs) : Regs := g.raiseStatus .illegalCommand false false 0

/-- A machine with other registers and the same port. -/
def State.setRegs (s : State) (g : Regs) : State := { s with regs := g }

/-! ### The register map (10_state.md R24) -/

/-- The byte offset of a register in the window (10_state.md R24's column "offset"). -/
def Reg.offset : Reg → Offset
  | .cmd => 0x00
  | .status => 0x04
  | .opaLo => 0x08
  | .opaHi => 0x0C
  | .opbLo => 0x10
  | .opbHi => 0x14
  | .dlens => 0x18
  | .hexLen => 0x1C
  | .hexIn0 => 0x20
  | .hexIn1 => 0x24
  | .hexIn2 => 0x28
  | .hexIn3 => 0x2C
  | .hexOut0 => 0x30
  | .hexOut1 => 0x34
  | .hexOut2 => 0x38
  | .hexOut3 => 0x3C
  | .hexOutLen => 0x40
  | .resLo => 0x48
  | .resHi => 0x4C
  | .fsign => 0x50
  | .fexp => 0x54
  | .fmantLo => 0x58
  | .fmantHi => 0x5C
  | .dmaskLo => 0x60
  | .dmaskHi => 0x64
  | .dlen => 0x68

/-- Every register of the window, in the map's order (10_state.md R24; "the 26 registers", R38). -/
def Reg.all : List Reg :=
  [.cmd, .status, .opaLo, .opaHi, .opbLo, .opbHi, .dlens, .hexLen, .hexIn0, .hexIn1, .hexIn2, .hexIn3,
    .hexOut0, .hexOut1, .hexOut2, .hexOut3, .hexOutLen, .resLo, .resHi, .fsign, .fexp, .fmantLo, .fmantHi,
    .dmaskLo, .dmaskHi, .dlen]

/-- The register at a slot's offset; `none` for a reserved slot (10_state.md R24, R25). -/
def Reg.ofOffset (off : Offset) : Option Reg := Reg.all.find? fun r => r.offset == off

/-- Whether a host write to the register stores anything (10_state.md R24's column "access"). -/
def Reg.accessKind : Reg → RegAccess
  | .cmd | .opaLo | .opaHi | .opbLo | .opbHi | .dlens | .hexLen | .hexIn0 | .hexIn1 | .hexIn2 | .hexIn3 => .rw
  | .status | .hexOut0 | .hexOut1 | .hexOut2 | .hexOut3 | .hexOutLen | .resLo | .resHi | .fsign | .fexp
  | .fmantLo | .fmantHi | .dmaskLo | .dmaskHi | .dlen => .ro

/-- The bits of a register that exist; the others read 0 and are not stored (10_state.md R26). -/
def Reg.definedMask : Reg → Word
  | .status => 0x0000_0F3F
  | .dlens => 0x0000_7F7F
  | .hexLen => 0x0000_00FF
  | .hexOutLen => 0x0000_001F
  | .fsign => 0x0000_0001
  | .fexp => 0x0000_07FF
  | .fmantHi => 0x000F_FFFF
  | .dlen => 0x0000_007F
  | .cmd | .opaLo | .opaHi | .opbLo | .opbHi | .hexIn0 | .hexIn1 | .hexIn2 | .hexIn3
  | .hexOut0 | .hexOut1 | .hexOut2 | .hexOut3 | .resLo | .resHi | .fmantLo | .dmaskLo | .dmaskHi => 0xFFFF_FFFF

/-- What the host reads from a register (10_state.md R24–R35). STATUS is masked to its defined fields; every state a
run reaches has its reserved bits 0 anyway (log entry 9). -/
def readReg (r : Reg) (g : Regs) : Word :=
  match r with
  | .cmd => g.cmd
  | .status => g.status &&& Reg.definedMask .status
  | .opaLo => loHalf g.opa
  | .opaHi => hiHalf g.opa
  | .opbLo => loHalf g.opb
  | .opbHi => hiHalf g.opb
  | .dlens => (g.lb.setWidth 32 <<< 8) ||| g.la.setWidth 32
  | .hexLen => g.hexLen.setWidth 32
  | .hexIn0 => bufWord g.hexIn 0
  | .hexIn1 => bufWord g.hexIn 1
  | .hexIn2 => bufWord g.hexIn 2
  | .hexIn3 => bufWord g.hexIn 3
  | .hexOut0 => bufWord g.hexOut 0
  | .hexOut1 => bufWord g.hexOut 1
  | .hexOut2 => bufWord g.hexOut 2
  | .hexOut3 => bufWord g.hexOut 3
  | .hexOutLen => g.hexOutLen.setWidth 32
  | .resLo => loHalf g.res
  | .resHi => hiHalf g.res
  | .fsign => g.fsign.setWidth 32
  | .fexp => g.fexp.setWidth 32
  | .fmantLo => g.fmant.extractLsb' 0 32
  | .fmantHi => (g.fmant.extractLsb' 32 20).setWidth 32
  | .dmaskLo => loHalf g.dmask
  | .dmaskHi => hiHalf g.dmask
  | .dlen => g.dlen.setWidth 32

/-- What a host write stores: `x[r] <- v & defined_mask(r)` for an RW register, nothing for an RO one
(20_memory.md R57, 10_state.md R26). A write to CMD also runs the command: that is `hostWrite`'s part. -/
def storeReg (r : Reg) (v : Word) (g : Regs) : Regs :=
  match r with
  | .cmd => { g with cmd := v }
  | .opaLo => { g with opa := withLo g.opa v }
  | .opaHi => { g with opa := withHi g.opa v }
  | .opbLo => { g with opb := withLo g.opb v }
  | .opbHi => { g with opb := withHi g.opb v }
  | .dlens => { g with la := v.extractLsb' 0 7, lb := v.extractLsb' 8 7 }
  | .hexLen => { g with hexLen := v.extractLsb' 0 8 }
  | .hexIn0 => { g with hexIn := setBufWord g.hexIn 0 v }
  | .hexIn1 => { g with hexIn := setBufWord g.hexIn 1 v }
  | .hexIn2 => { g with hexIn := setBufWord g.hexIn 2 v }
  | .hexIn3 => { g with hexIn := setBufWord g.hexIn 3 v }
  | .status | .hexOut0 | .hexOut1 | .hexOut2 | .hexOut3 | .hexOutLen | .resLo | .resHi | .fsign | .fexp
  | .fmantLo | .fmantHi | .dmaskLo | .dmaskHi | .dlen => g

/-- `MemRead(off, 4)` at an aligned offset: a reserved slot reads 0 (20_memory.md R56, 10_state.md R25). -/
def readSlot (off : Offset) (g : Regs) : Word :=
  match Reg.ofOffset off with
  | some r => readReg r g
  | none => 0

/-- What `MemWrite(off, 4, v)` stores at an aligned offset: nothing in a reserved slot (20_memory.md R57, R25). -/
def storeSlot (off : Offset) (v : Word) (g : Regs) : Regs :=
  match Reg.ofOffset off with
  | some r => storeReg r v g
  | none => g

/-- The offset of the slot that a byte offset lies in (20_memory.md R51). -/
def slotOf (off : Offset) : Offset := off &&& 0xFC

/-- The byte of the window at an offset: byte 4·i + j is bits [8·j+7 : 8·j] of slot i (20_memory.md R51). No access is
one byte wide (R54); this is the byte view that R51 names. -/
def windowByte (off : Offset) (g : Regs) : Byte :=
  (readSlot (slotOf off) g).extractLsb' (8 * (off.toNat % 4)) 8

end Sys2Proof.Machine
end

