-- ==== Sys2Proof/Machine/Codec.lean ====
section
/-! DEFINITION. The RawCodec commands ENC32, ENC64, DEC32, DEC64, RTV32, RTV64 (40_codec.md). -/

namespace Sys2Proof.Machine

/-! Each command is first a function of the registers alone ("A command is a pure function of the operand registers …
and the command word", 20_memory.md R57), then a meaning of the machine. -/

/-- ENC32 on the registers (40_codec.md R103). -/
def Regs.enc32 (g : Regs) : Regs := (g.putHexOut (encBuf Config.hex32Len g.opa32) 8).complete

/-- ENC64 on the registers (40_codec.md R104). -/
def Regs.enc64 (g : Regs) : Regs := (g.putHexOut (encBuf Config.hex64Len g.opa) 16).complete

/-- DEC with N characters: the check, then either INVALID_ENCODING with its causes and RES unchanged, or RES and OK
(40_codec.md R108–R110). `v` is the decoded word, zero-extended to 64 bits. -/
def Regs.decode (g : Regs) (n : Nat) (v : DWord) : Regs :=
  let c := checkHex n g.hexLen g.hexIn
  if c.valid then (g.putRes v).complete
  else g.raiseStatus .invalidEncoding c.lenBad c.charBad c.firstBad

/-- DEC32 on the registers (40_codec.md R108): `x[RES] <- zext_64(dec_8(c))`. -/
def Regs.dec32 (g : Regs) : Regs := g.decode Config.hex32Len ((decValue 32 Config.hex32Len g.hexIn).setWidth 64)

/-- DEC64 on the registers (40_codec.md R109): `x[RES] <- dec_16(c)`. -/
def Regs.dec64 (g : Regs) : Regs := g.decode Config.hex64Len (decValue 64 Config.hex64Len g.hexIn)

/-- RTV's pseudocode (40_codec.md R120, R121): encode `r`, write the string, decode it again, write that, compare.
The mismatch branch is kept as the spec writes it, though it is never taken (R122, 93_implementation_defined.md I14). -/
def Regs.roundTrip (g : Regs) (n : Nat) {w : Nat} (r : BitVec w) (len : BitVec 5) : Regs :=
  let h := encBuf n r
  let d := decValue w n h
  let g' := (g.putHexOut h len).putRes (d.setWidth 64)
  if charsOk n h && d == r then g'.complete
  else g'.raiseStatus .roundtripMismatch false false 0

/-- RTV32 on the registers (40_codec.md R120). -/
def Regs.rtv32 (g : Regs) : Regs := g.roundTrip Config.hex32Len g.opa32 8

/-- RTV64 on the registers (40_codec.md R121). -/
def Regs.rtv64 (g : Regs) : Regs := g.roundTrip Config.hex64Len g.opa 16

/-- ENC32 (40_codec.md R103). -/
def execEnc32 (s : State) : Host.Outcome State Fault Refusal := .next (s.setRegs s.regs.enc32)

/-- ENC64 (40_codec.md R104). -/
def execEnc64 (s : State) : Host.Outcome State Fault Refusal := .next (s.setRegs s.regs.enc64)

/-- DEC32 (40_codec.md R108). -/
def execDec32 (s : State) : Host.Outcome State Fault Refusal := .next (s.setRegs s.regs.dec32)

/-- DEC64 (40_codec.md R109). -/
def execDec64 (s : State) : Host.Outcome State Fault Refusal := .next (s.setRegs s.regs.dec64)

/-- RTV32 (40_codec.md R120). -/
def execRtv32 (s : State) : Host.Outcome State Fault Refusal := .next (s.setRegs s.regs.rtv32)

/-- RTV64 (40_codec.md R121). -/
def execRtv64 (s : State) : Host.Outcome State Fault Refusal := .next (s.setRegs s.regs.rtv64)

end Sys2Proof.Machine
end

