-- ==== Sys2Proof/Machine/Diff.lean ====
section
/-! DEFINITION. The BitDiffRenderer commands DIFF, CMP32 and CMP64 (42_diff.md). -/

namespace Sys2Proof.Machine

/-- DIFF on the registers (42_diff.md R160): a length above 64 is ILLEGAL_OPERAND with LEN_BAD; unequal lengths
truncate to the shorter, from the leftmost character (90_conflicts.md C3). -/
def Regs.diff (g : Regs) : Regs :=
  let la := g.la.toNat
  let lb := g.lb.toNat
  let n := min la lb
  if Config.diffMaxLen < la ∨ Config.diffMaxLen < lb then g.raiseStatus .illegalOperand true false 0
  else (g.putDiff (diffMask g.opa g.opb la lb n) (BitVec.ofNat 7 n)).complete

/-- CMP32 on the registers (42_diff.md R162): DMASK_HI becomes 0. -/
def Regs.cmp32 (g : Regs) : Regs := (g.putDiff ((g.opa32 ^^^ g.opb32).setWidth 64) 32).complete

/-- CMP64 on the registers (42_diff.md R163). -/
def Regs.cmp64 (g : Regs) : Regs := (g.putDiff (g.opa ^^^ g.opb) 64).complete

/-- DIFF (42_diff.md R160). -/
def execDiff (s : State) : Host.Outcome State Fault Refusal := .next (s.setRegs s.regs.diff)

/-- CMP32 (42_diff.md R162). -/
def execCmp32 (s : State) : Host.Outcome State Fault Refusal := .next (s.setRegs s.regs.cmp32)

/-- CMP64 (42_diff.md R163). -/
def execCmp64 (s : State) : Host.Outcome State Fault Refusal := .next (s.setRegs s.regs.cmp64)

end Sys2Proof.Machine
end

