-- ==== Sys2Proof/Machine/Extract.lean ====
section
/-! DEFINITION. The FieldExtractor commands EXT32 and EXT64 (41_extract.md): each field is shifted down and masked to
its width (R140), then held at its register's width. -/

namespace Sys2Proof.Machine

/-- EXT32 on the registers (41_extract.md R141): FEXP[10:8] and FMANT[51:23] become 0. -/
def Regs.ext32 (g : Regs) : Regs :=
  (g.putFields ((maskedField g.opa32 31 1).setWidth 1) ((maskedField g.opa32 23 8).setWidth 11)
    ((maskedField g.opa32 0 23).setWidth 52)).complete

/-- EXT64 on the registers (41_extract.md R142). -/
def Regs.ext64 (g : Regs) : Regs :=
  (g.putFields ((maskedField g.opa 63 1).setWidth 1) ((maskedField g.opa 52 11).setWidth 11)
    ((maskedField g.opa 0 52).setWidth 52)).complete

/-- EXT32 (41_extract.md R141). -/
def execExt32 (s : State) : Host.Outcome State Fault Refusal := .next (s.setRegs s.regs.ext32)

/-- EXT64 (41_extract.md R142). -/
def execExt64 (s : State) : Host.Outcome State Fault Refusal := .next (s.setRegs s.regs.ext64)

end Sys2Proof.Machine
end

