-- ==== Sys2Proof/Machine/Dispatch.lean ====
section
/-! DEFINITION. One arm per command (30_encoding.md R80). `exec i s` is command `i` run inside the CMD write that
issued it, with the word already stored in CMD (10_state.md R27). -/

namespace Sys2Proof.Machine

def exec (i : Instr) (s : State) : Host.Outcome State Fault Refusal :=
  match i with
  | .enc32 => Sys2Proof.Machine.execEnc32 s
  | .enc64 => Sys2Proof.Machine.execEnc64 s
  | .dec32 => Sys2Proof.Machine.execDec32 s
  | .dec64 => Sys2Proof.Machine.execDec64 s
  | .ext32 => Sys2Proof.Machine.execExt32 s
  | .ext64 => Sys2Proof.Machine.execExt64 s
  | .diff => Sys2Proof.Machine.execDiff s
  | .cmp32 => Sys2Proof.Machine.execCmp32 s
  | .cmp64 => Sys2Proof.Machine.execCmp64 s
  | .rtv32 => Sys2Proof.Machine.execRtv32 s
  | .rtv64 => Sys2Proof.Machine.execRtv64 s

end Sys2Proof.Machine
end

