-- ==== Sys2Proof/Machine/Bus.lean ====
section
/-! DEFINITION. The port (20_memory.md R54–R68) and reset (70_reset_and_hazards.md R220–R223): what one event does.
One event is one step and completes within it (20_memory.md R61, 70_reset_and_hazards.md R225). -/

namespace Sys2Proof.Machine

/-- The access is legal: 4 bytes (log2 = 2) at an offset that is a multiple of 4 (20_memory.md R54, R55). Every other
size code is refused with a BusError (log entry 13). -/
def Request.legal (q : Request) : Bool := q.size == 2 && q.addr.extractLsb' 0 2 == 0

/-- An aligned 32-bit write: `MemWrite(off, 4, v)` (00_scope.md R11). -/
def Request.wr (off : Offset) (v : Word) : Request := { write := true, addr := off, size := 2, wdata := v }

/-- An aligned 32-bit read: `MemRead(off, 4)` (00_scope.md R11). A read's req_wdata is not looked at. -/
def Request.rd (off : Offset) : Request := { write := false, addr := off, size := 2, wdata := 0 }

/-- The machine with a response on its port. -/
def State.respond (s : State) (r : Response) : State := { s with resp := some r }

/-- The bus write's completion, after the command it issued (70_reset_and_hazards.md R225). A command error is never
a bus error (60_exceptions.md R190). -/
def completeWrite : Host.Outcome State Fault Refusal → Host.Outcome State Fault Refusal
  | .next s => .next (s.respond .done)
  | .fault f => .fault f
  | .refused r => .refused r

/-- `execute(w)`: the command the word encodes, or ILLEGAL_COMMAND (30_encoding.md R80, R83). -/
def execute (w : Word) (s : State) : Host.Outcome State Fault Refusal :=
  match decode w with
  | .ok i => exec i s
  | .error _ => .next (s.setRegs s.regs.illegalCommand)

/-- `MemWrite(off, 4, v)` at an aligned offset (20_memory.md R57): store, and if the slot is CMD, then execute. -/
def hostWrite (off : Offset) (v : Word) (s : State) : Host.Outcome State Fault Refusal :=
  let stored := s.setRegs (storeSlot off v s.regs)
  if Reg.ofOffset off = some .cmd then execute v stored else .next stored

/-- One host access, checks in the order of 60_exceptions.md R193: BusError first (20_memory.md R55: "changes no
register, and runs no command"; the machine goes on, log entry 1), then the read (R56) or the write (R57). -/
def access (q : Request) (s : State) : Host.Outcome State Fault Refusal :=
  if !q.legal then .next (s.respond (.busError q.addr))
  else if q.write then completeWrite (hostWrite q.addr q.wdata s)
  else .next (s.respond (.data (readSlot q.addr s.regs)))

/-- Every register at its reset value, no response: "every register holds its reset value" (R221). -/
def State.holdReset (s : State) : State := { s with regs := Regs.reset, resp := none }

/-- What one event does. While rst is 1 no access is taken (R221, log entry 4); an access under way when rst rises "is
lost: it stores nothing and runs no command, and the host receives no meaningful response" (R221, log entry 5). -/
def handle (e : Event) (s : State) : Host.Outcome State Fault Refusal :=
  match e with
  | .access q => if s.rst then .next s.holdReset else access q s
  | .rstRise _ => .next { s.holdReset with rst := true }
  | .rstFall => if s.rst then .next { s.holdReset with rst := false } else .next { s with resp := none }

/-- With nothing at the port FHX "only waits for host accesses" (70_reset_and_hazards.md R222, log entry 6). -/
def idle (s : State) : Host.Outcome State Fault Refusal := if s.rst then .next s.holdReset else .next s

/-- The machine with the next access at the head of what is to arrive, and rst at 0 so that it is taken. -/
def State.issue (s : State) (q : Request) : State := { s with rst := false, pending := .access q :: s.pending }

end Sys2Proof.Machine
end

