-- ==== Sys2Proof/Machine/Step.lean ====
section
/-! DEFINITION. One step: the next event at the port, in arrival order (20_memory.md R61). -/

namespace Sys2Proof.Machine

/-- FHX "takes host accesses one at a time, in the order its port receives them" (20_memory.md R61). -/
def step (s : State) : Host.Outcome State Fault Refusal :=
  match s.pending with
  | [] => idle s
  | e :: rest => handle e { s with pending := rest }

/-- FHX fetches nothing: a command arrives as data in a CMD write (20_memory.md R65). So the word is put where the
machine takes its next command from: an aligned 4-byte write of it to CMD is the next access to arrive, with rst at 0
(log entry 2). -/
def State.withFetchWord (s : State) (nbits w : Nat) : State :=
  s.issue (Request.wr (Reg.offset .cmd) (tableWord nbits w))

end Sys2Proof.Machine
end

