-- ==== Sys2Proof/Machine/HostAsm.lean ====
section
/-! DEFINITION. The host's side of the port: where the window sits in its address space (20_memory.md R50, R67) and the
host assembly with its pseudo-instructions (30_encoding.md R87, R88), expanded to port requests. -/

namespace Sys2Proof.Machine

/-- The request a host access reaches FHX as: "A host access to address BASE_ADDR + off reaches offset off", and one
outside BASE_ADDR .. BASE_ADDR+0xFF does not reach FHX (20_memory.md R50). BASE_ADDR is an argument (log entry 11). -/
def busRequest (p : Config.OpenParams) (write : Bool) (addr : Nat) (size : BitVec 3) (wdata : Word) : Option Request :=
  if p.baseAddr ≤ addr ∧ addr < p.baseAddr + Config.windowSize then
    some { write := write, addr := BitVec.ofNat 8 (addr - p.baseAddr), size := size, wdata := wdata }
  else none

/-- "The effective address of an access to register NAME is BASE_ADDR + offset(NAME)" (20_memory.md R67). -/
def Reg.address (p : Config.OpenParams) (r : Reg) : Nat := p.baseAddr + r.offset.toNat

/-- One line of a host program (30_encoding.md R87, R88). -/
inductive HostLine where
  /-- `wr REG, imm32`. -/
  | wr (r : Reg) (imm : Word)
  /-- `rd REG`. -/
  | rd (r : Reg)
  /-- `rd REG == imm32`: a read, and the value the rules give for it. -/
  | rdIs (r : Reg) (value : Word)
  /-- `cmd MNEMONIC`. -/
  | cmd (i : Instr)
  /-- `wr64 OPA, imm64`. -/
  | wr64Opa (imm : DWord)
  /-- `wr64 OPB, imm64`. -/
  | wr64Opb (imm : DWord)
  /-- `wrlens la, lb`. -/
  | wrlens (la lb : Word)
  /-- `wrhex "s"`, the string as its 8-bit character codes. -/
  | wrhex (chars : List Byte)
  /-- `rdhex`. -/
  | rdhex
  /-- `rdfields`. -/
  | rdfields
  deriving DecidableEq, Repr

/-- `wr REG, imm32` as a bus transaction (30_encoding.md R87). -/
def wrReg (r : Reg) (v : Word) : Request := Request.wr r.offset v

/-- `rd REG` as a bus transaction (30_encoding.md R87). -/
def rdReg (r : Reg) : Request := Request.rd r.offset

/-- "c[k] is the 8-bit code of character k of s, or 0x00 if k ≥ len(s)" (30_encoding.md R88). -/
def hostChar (chars : List Byte) (k : Nat) : Byte := chars.getD k 0

/-- `c[4w] | c[4w+1]<<8 | c[4w+2]<<16 | c[4w+3]<<24` (30_encoding.md R88). -/
def hostWord (chars : List Byte) (i : Nat) : Word :=
  (hostChar chars (4 * i)).setWidth 32 ||| ((hostChar chars (4 * i + 1)).setWidth 32 <<< 8) |||
    ((hostChar chars (4 * i + 2)).setWidth 32 <<< 16) ||| ((hostChar chars (4 * i + 3)).setWidth 32 <<< 24)

/-- The bus transactions of a line, in order (30_encoding.md R87, R88). -/
def HostLine.expand : HostLine → List Request
  | .wr r v => [wrReg r v]
  | .rd r => [rdReg r]
  | .rdIs r _ => [rdReg r]
  | .cmd i => [wrReg .cmd (encode i)]
  | .wr64Opa v => [wrReg .opaLo (loHalf v), wrReg .opaHi (hiHalf v)]
  | .wr64Opb v => [wrReg .opbLo (loHalf v), wrReg .opbHi (hiHalf v)]
  | .wrlens la lb => [wrReg .dlens ((lb <<< 8) ||| la)]
  | .wrhex cs =>
    [wrReg .hexIn0 (hostWord cs 0), wrReg .hexIn1 (hostWord cs 1), wrReg .hexIn2 (hostWord cs 2),
      wrReg .hexIn3 (hostWord cs 3), wrReg .hexLen (BitVec.ofNat 32 (min cs.length 255))]
  | .rdhex => [rdReg .hexOut0, rdReg .hexOut1, rdReg .hexOut2, rdReg .hexOut3, rdReg .hexOutLen]
  | .rdfields => [rdReg .fsign, rdReg .fexp, rdReg .fmantLo, rdReg .fmantHi]

/-- A host program's accesses: "A program for FHX is the sequence of register accesses the host makes, in the host's
order" (10_state.md R23). -/
def hostAccesses (lines : List HostLine) : List Event := (lines.flatMap HostLine.expand).map .access

/-- `floatToHex64(x)`: `wr64 OPA, bits(x) ; cmd ENC64 ; rdhex` (30_encoding.md R88). -/
def floatToHex64 (bits : DWord) : List HostLine := [.wr64Opa bits, .cmd .enc64, .rdhex]

/-- `floatToHex32(x)`: the same with the 32-bit command (30_encoding.md R88). -/
def floatToHex32 (bits : Word) : List HostLine := [.wr .opaLo bits, .cmd .enc32, .rdhex]

/-- `hexToFloat64(s)` up to its read of STATUS (30_encoding.md R88). -/
def hexToFloat64 (chars : List Byte) : List HostLine := [.wrhex chars, .cmd .dec64, .rd .status]

/-- `hexToFloat32(s)` up to its read of STATUS (30_encoding.md R88). -/
def hexToFloat32 (chars : List Byte) : List HostLine := [.wrhex chars, .cmd .dec32, .rd .status]

/-- What `hexToFloat` reads next: `rd RES_LO ; rd RES_HI` if STATUS.CODE = OK (30_encoding.md R88). -/
def hexToFloatResult (status : Word) : List HostLine :=
  if statusCode status = StatusCode.ok.bits then [.rd .resLo, .rd .resHi] else []

/-- `fieldsOf64(x)`: `wr64 OPA, bits(x) ; cmd EXT64 ; rdfields` (30_encoding.md R88). -/
def fieldsOf64 (bits : DWord) : List HostLine := [.wr64Opa bits, .cmd .ext64, .rdfields]

/-- `fieldsOf32(x)`: the same with the 32-bit command (30_encoding.md R88). -/
def fieldsOf32 (bits : Word) : List HostLine := [.wr .opaLo bits, .cmd .ext32, .rdfields]

end Sys2Proof.Machine
end

