-- ==== Sys2Proof/Machine/Render.lean ====
section
/-! DEFINITION. The string forms of FHX's results (00_scope.md R13, R14, 41_extract.md R143, 42_diff.md R161, R164).
They are how a result is shown, not state: FHX holds bit vectors. -/

namespace Sys2Proof.Machine

/-- `render_bin_w(v)`: character i is '1' if `v[w-1-i] = 1`, else '0' (00_scope.md R13). -/
def renderBin {w : Nat} (v : BitVec w) : List Byte :=
  (List.range w).map fun i => if v.getLsbD (w - 1 - i) then 0x31 else 0x30

/-- The diff string of n mask bits: 'x' if `m[n-1-i] = 1`, else '-' (00_scope.md R14). -/
def renderDiff {w : Nat} (n : Nat) (m : BitVec w) : List Byte :=
  (List.range n).map fun i => if m.getLsbD (n - 1 - i) then 0x78 else 0x2D

/-- The source's `diff(a, b)`: '-' where the characters agree, 'x' where they differ, up to the shorter string
(42_diff.md R161, 90_conflicts.md C3, C7). -/
def sourceDiff (a b : List Byte) : List Byte := List.zipWith (fun x y => if x = y then 0x2D else 0x78) a b

/-- The source's FieldTriple (00_scope.md R16, 41_extract.md R143). -/
structure FieldTriple where
  /-- The sign string. -/
  sign : List Byte
  /-- The exponent string. -/
  exponent : List Byte
  /-- The mantissa string. -/
  mantissa : List Byte
  deriving DecidableEq, Repr

/-- The FieldTriple shown after EXT64: widths 1, 11, 52 (41_extract.md R143). -/
def Regs.fieldTriple64 (g : Regs) : FieldTriple where
  sign := renderBin g.fsign
  exponent := renderBin g.fexp
  mantissa := renderBin g.fmant

/-- The FieldTriple shown after EXT32: widths 1, 8, 23 (41_extract.md R143). -/
def Regs.fieldTriple32 (g : Regs) : FieldTriple where
  sign := renderBin g.fsign
  exponent := renderBin (g.fexp.extractLsb' 0 8)
  mantissa := renderBin (g.fmant.extractLsb' 0 23)

/-- The per-field diffs after CMP64: DMASK[63], DMASK[62:52], DMASK[51:0] (42_diff.md R164). -/
def Regs.fieldDiffs64 (g : Regs) : FieldTriple where
  sign := renderDiff 1 (g.dmask.extractLsb' 63 1)
  exponent := renderDiff 11 (g.dmask.extractLsb' 52 11)
  mantissa := renderDiff 52 (g.dmask.extractLsb' 0 52)

/-- The per-field diffs after CMP32: DMASK[31], DMASK[30:23], DMASK[22:0] (42_diff.md R164). -/
def Regs.fieldDiffs32 (g : Regs) : FieldTriple where
  sign := renderDiff 1 (g.dmask.extractLsb' 31 1)
  exponent := renderDiff 8 (g.dmask.extractLsb' 23 8)
  mantissa := renderDiff 23 (g.dmask.extractLsb' 0 23)

/-- The string held in HEXOUT: its first HEXOUT_LEN characters (10_state.md R32). -/
def Regs.hexOutString (g : Regs) : List Byte := (List.range g.hexOutLen.toNat).map (charAt g.hexOut)

/-- The diff string held in DMASK and DLEN (00_scope.md R14, 10_state.md R35). -/
def Regs.diffString (g : Regs) : List Byte := renderDiff g.dlen.toNat g.dmask

end Sys2Proof.Machine
end

