-- ==== Sys2Proof/Safety.lean ====
section
/-! DEFINITION. The notions claims are stated in: the tables of 10_state.md R40 and 30_encoding.md R84, runs over a
list of port events, the orders several hosts' accesses may arrive in (20_memory.md R62), and the invariant that every
step keeps. FHX has no unsafe run: no rule stops it. -/

namespace Sys2Proof.Machine

/-! ### Which registers a command reads and writes -/

/-- The command's own operand check passes (40_codec.md R106, 42_diff.md R160); the commands of 60_exceptions.md R192
cannot fail, and RTV never does (40_codec.md R122). -/
def succeeds (i : Instr) (g : Regs) : Bool :=
  match i with
  | .dec32 => (checkHex 8 g.hexLen g.hexIn).valid
  | .dec64 => (checkHex 16 g.hexLen g.hexIn).valid
  | .diff => decide (g.la.toNat ≤ 64) && decide (g.lb.toNat ≤ 64)
  | .enc32 | .enc64 | .ext32 | .ext64 | .cmp32 | .cmp64 | .rtv32 | .rtv64 => true

/-- The registers a command writes, on success and on error (10_state.md R40's table). The CMD write that issued the
command has stored CMD besides. -/
def writeSet (i : Instr) (success : Bool) : List Reg :=
  match i with
  | .enc32 | .enc64 => [.hexOut0, .hexOut1, .hexOut2, .hexOut3, .hexOutLen, .status]
  | .dec32 | .dec64 => if success then [.resLo, .resHi, .status] else [.status]
  | .rtv32 | .rtv64 => [.hexOut0, .hexOut1, .hexOut2, .hexOut3, .hexOutLen, .resLo, .resHi, .status]
  | .ext32 | .ext64 => [.fsign, .fexp, .fmantLo, .fmantHi, .status]
  | .diff => if success then [.dmaskLo, .dmaskHi, .dlen, .status] else [.status]
  | .cmp32 | .cmp64 => [.dmaskLo, .dmaskHi, .dlen, .status]

/-- The registers a command reads (30_encoding.md R84's table). -/
def readSet : Instr → List Reg
  | .enc32 | .ext32 | .rtv32 => [.opaLo]
  | .enc64 | .ext64 | .rtv64 => [.opaLo, .opaHi]
  | .dec32 | .dec64 => [.hexLen, .hexIn0, .hexIn1, .hexIn2, .hexIn3]
  | .diff => [.opaLo, .opaHi, .opbLo, .opbHi, .dlens]
  | .cmp32 => [.opaLo, .opbLo]
  | .cmp64 => [.opaLo, .opaHi, .opbLo, .opbHi]

/-- The registers that hold what commands produce, and CMD: those that only a CMD write or a reset changes
(10_state.md R24's column "written by", R27). -/
def resultRegs : List Reg :=
  [.cmd, .status, .hexOut0, .hexOut1, .hexOut2, .hexOut3, .hexOutLen, .resLo, .resHi, .fsign, .fexp, .fmantLo,
    .fmantHi, .dmaskLo, .dmaskHi, .dlen]

/-! ### Runs -/

/-- `k` steps, as `Host.Core.run` takes them (Laws/Port.lean proves the two equal). -/
def run : Nat → State → Host.Outcome State Fault Refusal
  | 0, s => .next s
  | k + 1, s =>
    match step s with
    | .next t => run k t
    | .fault f => .fault f
    | .refused r => .refused r

/-- The machine after the events arrive at its port, one step each (20_memory.md R61). -/
def after (events : List Event) (s : State) : Host.Outcome State Fault Refusal :=
  run events.length { s with pending := events }

/-- What the machine answers to each event as they arrive, one step each: one request, one response (20_memory.md R68). -/
def responses : List Event → State → List (Option Response)
  | [], _ => []
  | e :: es, s =>
    match after [e] s with
    | .next t => t.resp :: responses es t
    | .fault _ | .refused _ => []

/-- The event is a legal write of the register at `off`. -/
def Event.writes (off : Offset) : Event → Bool
  | .access q => q.legal && q.write && q.addr == off
  | .rstRise _ | .rstFall => false

/-- The event is an access that stores nothing: a read, or one that gets a BusError response (20_memory.md R55, R56). -/
def Event.passive : Event → Bool
  | .access q => !q.legal || !q.write
  | .rstRise _ | .rstFall => false

/-- The event is an access, not an edge of rst. -/
def Event.isAccess : Event → Bool
  | .access _ => true
  | .rstRise _ | .rstFall => false

/-- `zs` is an order in which two hosts' events `xs` and `ys` may arrive: each keeps its own order, and nothing else
is fixed ("A model leaves that order free, as a relation over every interleaving", 20_memory.md R62). -/
inductive Interleaving : List Event → List Event → List Event → Prop where
  | nil : Interleaving [] [] []
  | left {e : Event} {xs ys zs : List Event} : Interleaving xs ys zs → Interleaving (e :: xs) ys (e :: zs)
  | right {e : Event} {xs ys zs : List Event} : Interleaving xs ys zs → Interleaving xs (e :: ys) (e :: zs)

/-! ### The invariant -/

/-- A command word that the decoder refuses (30_encoding.md R83). -/
def illegalWord (w : Word) : Bool :=
  match decode w with
  | .ok _ => false
  | .error _ => true

/-- No command has run since reset: the result registers hold 0 (70_reset_and_hazards.md R223). -/
def Regs.Unused (g : Regs) : Prop :=
  g.cmd = 0 ∧ g.status = 0 ∧ g.hexOut = Vector.replicate 16 0 ∧ g.hexOutLen = 0 ∧ g.res = 0 ∧ g.fsign = 0 ∧
    g.fexp = 0 ∧ g.fmant = 0 ∧ g.dmask = 0 ∧ g.dlen = 0

/-- STATUS describes the last command, the word in CMD (10_state.md R28, 60_exceptions.md R191): reserved bits are 0,
and each CODE comes with the words that set it and with its cause bits. Codes 5 (40_codec.md R122) and 6–15 do not
occur. -/
def Regs.StatusInv (g : Regs) : Prop :=
  g.status &&& ~~~Reg.definedMask .status = 0 ∧
  (statusCharBad g.status = false → statusFirstBad g.status = 0) ∧
  ((statusCode g.status = 0 ∧ g.Unused) ∨
    (g.status = 0x0000_0001 ∧ illegalWord g.cmd = false) ∨
    (statusCode g.status = 2 ∧ (statusLenBad g.status = true ∨ statusCharBad g.status = true) ∧
      (g.cmd = encode .dec32 ∨ g.cmd = encode .dec64)) ∨
    (g.status = 0x0000_0003 ∧ illegalWord g.cmd = true) ∨
    (g.status = 0x0000_0014 ∧ g.cmd = encode .diff))

/-- HEXOUT_LEN is 0, 8 or 16; HEXOUT holds lowercase hex digits below it and 0x00 from it on (10_state.md R32,
40_codec.md R101). -/
def Regs.HexOutInv (g : Regs) : Prop :=
  (g.hexOutLen = 0 ∨ g.hexOutLen = 8 ∨ g.hexOutLen = 16) ∧
  (∀ k, k < 16 → g.hexOutLen.toNat ≤ k → charAt g.hexOut k = 0) ∧
  (∀ k, k < g.hexOutLen.toNat → ∃ v, charAt g.hexOut k = hexchar v)

/-- DLEN is at most 64 and DMASK[63:n] is 0 (10_state.md R35). -/
def Regs.DiffInv (g : Regs) : Prop :=
  g.dlen.toNat ≤ 64 ∧ ∀ j, g.dlen.toNat ≤ j → g.dmask.getLsbD j = false

/-- What holds of the registers between any two steps. -/
def Regs.Inv (g : Regs) : Prop := g.StatusInv ∧ g.HexOutInv ∧ g.DiffInv

/-- What holds of the machine between any two steps: its registers' invariant, and "While rst is 1 … every register
holds its reset value" (70_reset_and_hazards.md R221). -/
def State.Inv (s : State) : Prop := s.regs.Inv ∧ (s.rst = true → s.regs = Regs.reset)

end Sys2Proof.Machine
end

