-- ==== Sys2Proof/Certificates/Slice0/Obligations.lean ====
section
/-! DEFINITION. What is claimed of FHX, for the provers. Each statement's docstring names the rule it formalises. A
`setRegs { s.regs with … }` states the frame: every register not named, rst, what is still to arrive and the last
response are unchanged. FHX has no memory beside its register window, so that is the frame of every byte of it. -/

open Sys2Proof Sys2Proof.Machine

/-! ### Reset and the register window -/

/-- 70_reset_and_hazards.md R220: every register is 0 after reset, and reserved slots read 0 at all times. -/
def Obligations.ResetLeavesEveryRegisterZero : Prop :=
  (∀ r : Reg, readReg r State.reset.regs = 0) ∧
  State.reset.regs.cmd = 0 ∧ State.reset.regs.status = 0 ∧ statusCode State.reset.regs.status = StatusCode.idle.bits ∧
  State.reset.regs.opa = 0 ∧ State.reset.regs.opb = 0 ∧ State.reset.regs.la = 0 ∧ State.reset.regs.lb = 0 ∧
  State.reset.regs.hexLen = 0 ∧ State.reset.regs.hexOutLen = 0 ∧
  (∀ k, k < 16 → charAt State.reset.regs.hexIn k = 0 ∧ charAt State.reset.regs.hexOut k = 0) ∧
  State.reset.regs.res = 0 ∧ State.reset.regs.fsign = 0 ∧ State.reset.regs.fexp = 0 ∧ State.reset.regs.fmant = 0 ∧
  State.reset.regs.dmask = 0 ∧ State.reset.regs.dlen = 0 ∧
  ∀ (off : Offset) (g : Regs), off = 0x44 ∨ 0x6C ≤ off → readSlot (slotOf off) g = 0

/-- The register map of 10_state.md R24 and R25: the column "offset" written out, each register in a slot of its own, and
the slots without a register 0x44 and 0x6C–0xFC. -/
def Obligations.RegisterMapIsOneToOne : Prop :=
  (Reg.offset .cmd = 0x00 ∧ Reg.offset .status = 0x04 ∧ Reg.offset .opaLo = 0x08 ∧ Reg.offset .opaHi = 0x0C ∧
    Reg.offset .opbLo = 0x10 ∧ Reg.offset .opbHi = 0x14 ∧ Reg.offset .dlens = 0x18 ∧ Reg.offset .hexLen = 0x1C ∧
    Reg.offset .hexIn0 = 0x20 ∧ Reg.offset .hexIn1 = 0x24 ∧ Reg.offset .hexIn2 = 0x28 ∧ Reg.offset .hexIn3 = 0x2C ∧
    Reg.offset .hexOut0 = 0x30 ∧ Reg.offset .hexOut1 = 0x34 ∧ Reg.offset .hexOut2 = 0x38 ∧ Reg.offset .hexOut3 = 0x3C ∧
    Reg.offset .hexOutLen = 0x40 ∧ Reg.offset .resLo = 0x48 ∧ Reg.offset .resHi = 0x4C ∧ Reg.offset .fsign = 0x50 ∧
    Reg.offset .fexp = 0x54 ∧ Reg.offset .fmantLo = 0x58 ∧ Reg.offset .fmantHi = 0x5C ∧ Reg.offset .dmaskLo = 0x60 ∧
    Reg.offset .dmaskHi = 0x64 ∧ Reg.offset .dlen = 0x68) ∧
  (∀ r : Reg, Reg.ofOffset r.offset = some r) ∧
  (∀ (off : Offset) (r : Reg), Reg.ofOffset off = some r → off = r.offset) ∧
  ∀ off : Offset, off.toNat % 4 = 0 → (Reg.ofOffset off = none ↔ off = 0x44 ∨ 0x6C ≤ off)

/-- 10_state.md R25: a reserved slot reads 0, and a write to it changes nothing and does not fail. -/
def Obligations.ReservedSlotsReadZeroAndIgnoreWrites : Prop :=
  ∀ (s : State) (off : Offset) (v : Word), off.toNat % 4 = 0 → off = 0x44 ∨ 0x6C ≤ off →
    access (Request.rd off) s = .next (s.respond (.data 0)) ∧ access (Request.wr off v) s = .next (s.respond .done)

/-- 10_state.md R26, its four points: RO writes are ignored without error; an RW register stores its defined fields
only; undefined bits read 0; CMD stores all 32 bits and bits 31:4 make the command illegal. -/
def Obligations.ReadOnlyRegistersAndReservedBits : Prop :=
  (∀ r ∈ [Reg.status, .hexOut0, .hexOut1, .hexOut2, .hexOut3, .hexOutLen, .resLo, .resHi, .fsign, .fexp, .fmantLo,
      .fmantHi, .dmaskLo, .dmaskHi, .dlen],
    ∀ (v : Word) (s : State), access (Request.wr r.offset v) s = .next (s.respond .done)) ∧
  (∀ (v : Word) (g : Regs),
    readReg .dlens (storeReg .dlens v g) = v &&& 0x0000_7F7F ∧ readReg .hexLen (storeReg .hexLen v g) = v &&& 0x0000_00FF) ∧
  (∀ g : Regs, readReg .hexOutLen g &&& 0xFFFF_FFE0 = 0 ∧ readReg .fsign g &&& 0xFFFF_FFFE = 0 ∧
    readReg .fexp g &&& 0xFFFF_F800 = 0 ∧ readReg .fmantHi g &&& 0xFFF0_0000 = 0 ∧ readReg .dlen g &&& 0xFFFF_FF80 = 0 ∧
    readReg .status g &&& 0xFFFF_F0C0 = 0 ∧ readReg .dlens g &&& 0xFFFF_8080 = 0 ∧ readReg .hexLen g &&& 0xFFFF_FF00 = 0) ∧
  (∀ (w : Word) (s : State), ∃ t, access (Request.wr (Reg.offset .cmd) w) s = .next t ∧ readReg .cmd t.regs = w ∧
    (w.extractLsb' 4 28 ≠ 0 → t.regs.status = 0x0000_0003))

/-- 20_memory.md R56: an aligned 4-byte read returns the register, reserved bits and reserved slots reading 0, changes
no register and starts no command, so a second read returns the same. -/
def Obligations.HostReadReturnsTheRegister : Prop :=
  (∀ (s : State) (r : Reg), access (Request.rd r.offset) s = .next (s.respond (.data (readReg r s.regs))) ∧
    readReg r s.regs &&& ~~~r.definedMask = 0) ∧
  ∀ (s : State) (q : Request), q.write = false → q.addr.toNat % 4 = 0 → q.size = 2 →
    ∃ t v, access q s = .next t ∧ t.resp = some (.data v) ∧ t.regs = s.regs ∧ t.pending = s.pending ∧ t.rst = s.rst ∧
      access q t = .next t ∧ (q.addr = 0x44 ∨ 0x6C ≤ q.addr → v = 0)

/-- 20_memory.md R55, R68: an access that is misaligned or not 4 bytes long gets a BusError response, no data, changes no
register and runs no command, whatever slot it names. That the step is a next state with an error response, and not a
fault of the machine, is the model's reading (log entry 1), and so is that the size codes 4–7, whose sizes R68 does not
name, are refused like 0, 1 and 3 (log entry 13). -/
def Obligations.BadAccessGetsBusErrorAndChangesNothing : Prop :=
  ∀ (s : State) (q : Request) (rest : List Event), s.rst = false → s.pending = .access q :: rest →
    q.addr.toNat % 4 ≠ 0 ∨ q.size ≠ 2 →
    step s = .next { s with pending := rest, resp := some (.busError q.addr) }

/-- 20_memory.md R57's table of what a write stores, outside CMD: the addressed RW register gets the defined bits, and
no other register changes; nothing changes for an RO register or a reserved slot. -/
def Obligations.HostWriteStoresOnlyItsRegister : Prop :=
  (∀ (s : State) (r : Reg) (v : Word), r.accessKind = .rw → r ≠ .cmd →
    ∃ t, access (Request.wr r.offset v) s = .next t ∧ t.resp = some .done ∧ readReg r t.regs = v &&& r.definedMask ∧
      (∀ r' : Reg, r' ≠ r → readReg r' t.regs = readReg r' s.regs) ∧ t.pending = s.pending ∧ t.rst = s.rst) ∧
  ∀ (s : State) (off : Offset) (v : Word), off.toNat % 4 = 0 →
    (∀ r : Reg, Reg.ofOffset off = some r → r.accessKind = .ro) →
    access (Request.wr off v) s = .next (s.respond .done)

/-- 20_memory.md R57: a CMD write repeated with unchanged operands writes the same values again, and so is every
write idempotent. A write that is misaligned or not 4 bytes long (R55) is covered too: that it answers a next state, with
the same error response each time, is the model's reading (log entry 1). -/
def Obligations.WritesAreIdempotent : Prop :=
  ∀ (s : State) (q : Request), q.write = true → ∃ t, access q s = .next t ∧ access q t = .next t

/-- 20_memory.md R51, 10_state.md R31, R32: byte 4·i + j of the window is bits 8·j+7 : 8·j of slot i, and character k
of HEXIN and of HEXOUT is the byte at 0x20 + k and 0x30 + k. -/
def Obligations.WindowBytesAreLittleEndianLanes : Prop :=
  (∀ (g : Regs) (i j : Nat), i < 64 → j < 4 →
    windowByte (BitVec.ofNat 8 (4 * i + j)) g = (readSlot (BitVec.ofNat 8 (4 * i)) g).extractLsb' (8 * j) 8) ∧
  ∀ (g : Regs) (k : Nat), k < 16 →
    windowByte (BitVec.ofNat 8 (0x20 + k)) g = charAt g.hexIn k ∧
    windowByte (BitVec.ofNat 8 (0x30 + k)) g = charAt g.hexOut k

/-- 20_memory.md R53: a host may write the halves of OPA, and of OPB, in either order; each register is its HI slot
followed by its LO slot. -/
def Obligations.OperandHalvesMayComeInEitherOrder : Prop :=
  ∀ (s : State) (lo hi : Word), s.rst = false →
    (∃ t u, after [.access (wrReg .opaLo lo), .access (wrReg .opaHi hi)] s = .next t ∧
      after [.access (wrReg .opaHi hi), .access (wrReg .opaLo lo)] s = .next u ∧
      t.regs = { s.regs with opa := hi ++ lo } ∧ u.regs = t.regs) ∧
    (∃ t u, after [.access (wrReg .opbLo lo), .access (wrReg .opbHi hi)] s = .next t ∧
      after [.access (wrReg .opbHi hi), .access (wrReg .opbLo lo)] s = .next u ∧
      t.regs = { s.regs with opb := hi ++ lo } ∧ u.regs = t.regs)

/-- 20_memory.md R50, R67: with the window at BASE_ADDR, a register's address reaches its own offset, and an address
outside BASE_ADDR .. BASE_ADDR+0xFF does not reach FHX. That host addresses are natural numbers is the model's reading
(log entry 11). -/
def Obligations.WindowSitsAtBaseAddr : Prop :=
  (∀ (p : Config.OpenParams) (write : Bool) (off : Offset) (size : BitVec 3) (v : Word),
    busRequest p write (p.baseAddr + off.toNat) size v = some { write := write, addr := off, size := size, wdata := v }) ∧
  (∀ (p : Config.OpenParams) (r : Reg) (v : Word), busRequest p true (r.address p) 2 v = some (wrReg r v)) ∧
  (∀ (p : Config.OpenParams) (write : Bool) (addr : Nat) (size : BitVec 3) (v : Word),
    addr < p.baseAddr ∨ p.baseAddr + 0xFF < addr → busRequest p write addr size v = none)

/-! ### Command words -/

/-- 30_encoding.md R82: the decoder matches the whole word against the table's column "word", over all 2^32 words, and
any word not in the column is refused. The first clause holds for every command: decoding its encoding gives it back. -/
def Obligations.DecodeMatchesExactlyTheTableWords : Prop :=
  (∀ i : Instr, decode (encode i) = .ok i) ∧
  (∀ (w : Word) (i : Instr), decode w = .ok i ↔ w = encode i) ∧
  (∀ i j : Instr, encode i = encode j → i = j) ∧
  (encode .enc32 = 0x0000_0001 ∧ encode .enc64 = 0x0000_0002 ∧ encode .dec32 = 0x0000_0003 ∧
    encode .dec64 = 0x0000_0004 ∧ encode .ext32 = 0x0000_0005 ∧ encode .ext64 = 0x0000_0006 ∧
    encode .diff = 0x0000_0007 ∧ encode .cmp32 = 0x0000_0008 ∧ encode .cmp64 = 0x0000_0009 ∧
    encode .rtv32 = 0x0000_000A ∧ encode .rtv64 = 0x0000_000B) ∧
  ∀ w : Word, w.toNat = 0 ∨ 0xB < w.toNat → ∃ e, decode w = .error e

/-- 30_encoding.md R82's column "word", written out. -/
def Obligations.CommandWordsDecode : Prop :=
  decode 0x0000_0001#32 = .ok .enc32 ∧ decode 0x0000_0002#32 = .ok .enc64 ∧ decode 0x0000_0003#32 = .ok .dec32 ∧
  decode 0x0000_0004#32 = .ok .dec64 ∧ decode 0x0000_0005#32 = .ok .ext32 ∧ decode 0x0000_0006#32 = .ok .ext64 ∧
  decode 0x0000_0007#32 = .ok .diff ∧ decode 0x0000_0008#32 = .ok .cmp32 ∧ decode 0x0000_0009#32 = .ok .cmp64 ∧
  decode 0x0000_000A#32 = .ok .rtv32 ∧ decode 0x0000_000B#32 = .ok .rtv64 ∧
  decode 0x0000_0000#32 = .error (.reservedOpcode 0x0) ∧ decode 0x0000_000C#32 = .error (.reservedOpcode 0xC) ∧
  decode 0x0000_000F#32 = .error (.reservedOpcode 0xF) ∧ decode 0x8000_0002#32 = .error .reservedBits

/-- 30_encoding.md R83 and R85: the decoder refuses a word exactly when a bit of 31:4 is set or OP is 0x0 or 0xC–0xF. -/
def Obligations.DecodeRefusesExactlyTheIllegalWords : Prop :=
  ∀ w : Word, (∃ e, decode w = .error e) ↔ w.toNat / 16 ≠ 0 ∨ w.toNat % 16 = 0 ∨ 0xC ≤ w.toNat % 16

/-- 30_encoding.md R83: writing an illegal word stores it in CMD, sets STATUS to ILLEGAL_COMMAND alone, changes no other
register, and the bus write completes normally. -/
def Obligations.IllegalCommandWordSetsStatusOnly : Prop :=
  ∀ (s : State) (w : Word) (rest : List Event), s.rst = false →
    s.pending = .access (Request.wr 0x00 w) :: rest →
    w.toNat / 16 ≠ 0 ∨ w.toNat % 16 = 0 ∨ 0xC ≤ w.toNat % 16 →
    step s = .next
      { regs := { s.regs with cmd := w, status := 0x0000_0003 }, rst := false, pending := rest, resp := some .done } ∧
    statusCode 0x0000_0003 = StatusCode.illegalCommand.bits

/-- 10_state.md R27, 30_encoding.md R80: when the next access writes a command's word to CMD, the step is that
command's meaning at the machine with the word stored in CMD, and then the write completes. `withFetchWord` places
such a write: how a host's access reaches a step is the model's choice (log entry 2). -/
def Obligations.StepRunsTheWrittenCommand : Prop :=
  (∀ (s : State) (w : Word) (i : Instr) (rest : List Event), s.rst = false →
    s.pending = .access (Request.wr 0x00 w) :: rest → decode w = .ok i →
    step s = completeWrite (exec i { s with pending := rest, regs := { s.regs with cmd := w } })) ∧
  ∀ (s : State) (i : Instr), step (s.withFetchWord 32 (encode i).toNat) =
    completeWrite (exec i { s with rst := false, regs := { s.regs with cmd := encode i } })

/-- 10_state.md R27 to R31: every word written to CMD completes in its step: it is what CMD reads, STATUS has been
written (CODE is not IDLE, and no reserved CODE), and no operand register has changed. -/
def Obligations.CommandWriteCompletesAndKeepsOperands : Prop :=
  ∀ (s : State) (w : Word) (rest : List Event), s.rst = false → s.pending = .access (Request.wr 0x00 w) :: rest →
    ∃ t, step s = .next t ∧ t.resp = some .done ∧ t.pending = rest ∧ t.rst = false ∧ t.regs.cmd = w ∧
      1 ≤ statusCode t.regs.status ∧ statusCode t.regs.status ≤ 4 ∧
      t.regs.opa = s.regs.opa ∧ t.regs.opb = s.regs.opb ∧ t.regs.la = s.regs.la ∧ t.regs.lb = s.regs.lb ∧
      t.regs.hexLen = s.regs.hexLen ∧ t.regs.hexIn = s.regs.hexIn

/-! ### The codec -/

/-- 40_codec.md R101 and R105: the digits as character codes, both ways, and every other character invalid. -/
def Obligations.HexDigitsAndTheirCharacters : Prop :=
  (∀ v : BitVec 4, (hexchar v).toNat = if v.toNat < 10 then 0x30 + v.toNat else 0x61 + (v.toNat - 10)) ∧
  (∀ (c : Byte) (v : BitVec 4), hexval c = some v ↔
    (0x30 ≤ c.toNat ∧ c.toNat ≤ 0x39 ∧ v.toNat = c.toNat - 0x30) ∨
    (0x61 ≤ c.toNat ∧ c.toNat ≤ 0x66 ∧ v.toNat = c.toNat - 0x61 + 10) ∨
    (0x41 ≤ c.toNat ∧ c.toNat ≤ 0x46 ∧ v.toNat = c.toNat - 0x41 + 10)) ∧
  ∀ v : BitVec 4, hexval (hexchar v) = some v

/-- 40_codec.md R103: ENC32 shows OPA_LO in HEXOUT's first 8 characters, most significant digit first, clears the
other 8, sets HEXOUT_LEN = 8 and STATUS = OK, and writes nothing else. -/
def Obligations.EncodeBinary32 : Prop :=
  decode 0x0000_0001#32 = .ok .enc32 ∧
  ∀ s : State, ∃ buf, exec .enc32 s =
      .next (s.setRegs { s.regs with hexOut := buf, hexOutLen := 8, status := 0x0000_0001 }) ∧
    (∀ k, k < 8 → charAt buf k = hexchar (s.regs.opa.extractLsb' (28 - 4 * k) 4)) ∧
    ∀ k, 8 ≤ k → k < 16 → charAt buf k = 0x00

/-- 40_codec.md R104: ENC64 shows OPA in HEXOUT's 16 characters, most significant digit first, sets HEXOUT_LEN = 16 and
STATUS = OK, and writes nothing else. -/
def Obligations.EncodeBinary64 : Prop :=
  decode 0x0000_0002#32 = .ok .enc64 ∧
  ∀ s : State, ∃ buf, exec .enc64 s =
      .next (s.setRegs { s.regs with hexOut := buf, hexOutLen := 16, status := 0x0000_0001 }) ∧
    ∀ k, k < 16 → charAt buf k = hexchar (s.regs.opa.extractLsb' (60 - 4 * k) 4)

/-- 40_codec.md R106, R108: with LEN = 8 and 8 hex digits, DEC32 gives RES the word whose k-th digit from the top is
character k, zero-extended, and OK; else it gives INVALID_ENCODING with its causes and changes nothing else. -/
def Obligations.DecodeBinary32 : Prop :=
  decode 0x0000_0003#32 = .ok .dec32 ∧
  ∀ s : State,
    (s.regs.hexLen = 8 → (∀ k, k < 8 → hexval (charAt s.regs.hexIn k) ≠ none) →
      ∃ v : Word, exec .dec32 s = .next (s.setRegs { s.regs with res := v.setWidth 64, status := 0x0000_0001 }) ∧
        ∀ k, k < 8 → hexval (charAt s.regs.hexIn k) = some (v.extractLsb' (28 - 4 * k) 4)) ∧
    (s.regs.hexLen ≠ 8 ∨ (∃ k, k < 8 ∧ hexval (charAt s.regs.hexIn k) = none) →
      ∃ st : Word, exec .dec32 s = .next (s.setRegs { s.regs with status := st }) ∧
        st &&& 0xFFFF_F0C0 = 0 ∧ statusCode st = StatusCode.invalidEncoding.bits ∧
        (statusLenBad st = true ↔ s.regs.hexLen ≠ 8) ∧
        (statusCharBad st = true ↔
          ∃ k, k < min s.regs.hexLen.toNat 16 ∧ hexval (charAt s.regs.hexIn k) = none) ∧
        (statusCharBad st = false → statusFirstBad st = 0) ∧
        ∀ m, m < min s.regs.hexLen.toNat 16 → hexval (charAt s.regs.hexIn m) = none →
          (∀ j, j < m → hexval (charAt s.regs.hexIn j) ≠ none) → (statusFirstBad st).toNat = m)

/-- 40_codec.md R106, R109: DEC64, the same with 16 characters and all of RES. -/
def Obligations.DecodeBinary64 : Prop :=
  decode 0x0000_0004#32 = .ok .dec64 ∧
  ∀ s : State,
    (s.regs.hexLen = 16 → (∀ k, k < 16 → hexval (charAt s.regs.hexIn k) ≠ none) →
      ∃ v : DWord, exec .dec64 s = .next (s.setRegs { s.regs with res := v, status := 0x0000_0001 }) ∧
        ∀ k, k < 16 → hexval (charAt s.regs.hexIn k) = some (v.extractLsb' (60 - 4 * k) 4)) ∧
    (s.regs.hexLen ≠ 16 ∨ (∃ k, k < 16 ∧ hexval (charAt s.regs.hexIn k) = none) →
      ∃ st : Word, exec .dec64 s = .next (s.setRegs { s.regs with status := st }) ∧
        st &&& 0xFFFF_F0C0 = 0 ∧ statusCode st = StatusCode.invalidEncoding.bits ∧
        (statusLenBad st = true ↔ s.regs.hexLen ≠ 16) ∧
        (statusCharBad st = true ↔
          ∃ k, k < min s.regs.hexLen.toNat 16 ∧ hexval (charAt s.regs.hexIn k) = none) ∧
        (statusCharBad st = false → statusFirstBad st = 0) ∧
        ∀ m, m < min s.regs.hexLen.toNat 16 → hexval (charAt s.regs.hexIn m) = none →
          (∀ j, j < m → hexval (charAt s.regs.hexIn j) ≠ none) → (statusFirstBad st).toNat = m)

/-- 40_codec.md R111: every character of enc_16(R) is a hex digit, dec_16(enc_16(R)) = R, and the host's ENC64, copy,
DEC64 sequence through the port ends with RES = R and OK, for all 2^64 words and from any machine not held in reset. -/
def Obligations.RoundTripBinary64 : Prop :=
  (∀ R : DWord, (∀ k, k < 16 → hexval (encChar 16 R k) ≠ none) ∧ decValue 64 16 (encBuf 16 R) = R) ∧
  ∀ (s : State) (R : DWord), s.rst = false →
    ∃ t u, after (hostAccesses [.wr64Opa R, .cmd .enc64]) s = .next t ∧
      after (hostAccesses [.wr .hexIn0 (readReg .hexOut0 t.regs), .wr .hexIn1 (readReg .hexOut1 t.regs),
        .wr .hexIn2 (readReg .hexOut2 t.regs), .wr .hexIn3 (readReg .hexOut3 t.regs), .wr .hexLen 16, .cmd .dec64]) t
        = .next u ∧
      u.regs.res = R ∧ statusCode u.regs.status = StatusCode.ok.bits

/-- 40_codec.md R112: the same for binary32, over all 2^32 words. That the host program loads OPA_LO alone, where R112
says "the same host program", is the model's choice (log entry 17); OPA_HI is then whatever it was. -/
def Obligations.RoundTripBinary32 : Prop :=
  (∀ R : Word, (∀ k, k < 8 → hexval (encChar 8 R k) ≠ none) ∧ decValue 32 8 (encBuf 8 R) = R) ∧
  ∀ (s : State) (R : Word), s.rst = false →
    ∃ t u, after (hostAccesses [.wr .opaLo R, .cmd .enc32]) s = .next t ∧
      after (hostAccesses [.wr .hexIn0 (readReg .hexOut0 t.regs), .wr .hexIn1 (readReg .hexOut1 t.regs),
        .wr .hexIn2 (readReg .hexOut2 t.regs), .wr .hexIn3 (readReg .hexOut3 t.regs), .wr .hexLen 8, .cmd .dec32]) t
        = .next u ∧
      u.regs.res = R.setWidth 64 ∧ statusCode u.regs.status = StatusCode.ok.bits

/-- 40_codec.md R113: a valid string comes back in lower case, and two valid strings decode to the same word exactly
when they are equal ignoring case. -/
def Obligations.DecodeThenEncodeIsLowerCase : Prop :=
  ∀ n, n = 8 ∨ n = 16 → ∀ a : Vector Byte 16, (∀ k, k < n → hexval (charAt a k) ≠ none) →
    (∀ k, k < n → charAt (encBuf n (decValue (4 * n) n a)) k = lower (charAt a k)) ∧
    ∀ b : Vector Byte 16, (∀ k, k < n → hexval (charAt b k) ≠ none) →
      (decValue (4 * n) n a = decValue (4 * n) n b ↔ ∀ k, k < n → lower (charAt a k) = lower (charAt b k))

/-- 40_codec.md R120, R122: RTV32 writes HEXOUT as ENC32 does, RES = zext_64(OPA_LO) and OK, for every operand. -/
def Obligations.RoundTripSelfCheckBinary32 : Prop :=
  decode 0x0000_000A#32 = .ok .rtv32 ∧
  ∀ s : State, ∃ buf, exec .rtv32 s =
      .next (s.setRegs { s.regs with
        hexOut := buf, hexOutLen := 8, res := (s.regs.opa.extractLsb' 0 32).setWidth 64, status := 0x0000_0001 }) ∧
    (∀ k, k < 8 → charAt buf k = hexchar (s.regs.opa.extractLsb' (28 - 4 * k) 4)) ∧
    ∀ k, 8 ≤ k → k < 16 → charAt buf k = 0x00

/-- 40_codec.md R121, R122: RTV64 writes HEXOUT as ENC64 does, RES = OPA and OK, for every operand. -/
def Obligations.RoundTripSelfCheckBinary64 : Prop :=
  decode 0x0000_000B#32 = .ok .rtv64 ∧
  ∀ s : State, ∃ buf, exec .rtv64 s =
      .next (s.setRegs { s.regs with hexOut := buf, hexOutLen := 16, res := s.regs.opa, status := 0x0000_0001 }) ∧
    ∀ k, k < 16 → charAt buf k = hexchar (s.regs.opa.extractLsb' (60 - 4 * k) 4)

/-- 40_codec.md R122, 10_state.md R28: no step ever brings STATUS.CODE to ROUNDTRIP_MISMATCH or to a reserved value
6–15: a state that shows one had it before. -/
def Obligations.NoStepReportsRoundtripMismatch : Prop :=
  ∀ s t : State, step s = .next t → 5 ≤ statusCode t.regs.status → t.regs.status = s.regs.status

/-! ### The field extractor -/

/-- 41_extract.md R140: shift and mask is the slice, for each row of the table of masks. -/
def Obligations.FieldMasksAreSlices : Prop :=
  (∀ R : DWord, (R >>> 63) &&& 0x1 = (R.extractLsb' 63 1).setWidth 64 ∧
    (R >>> 52) &&& 0x7FF = (R.extractLsb' 52 11).setWidth 64 ∧
    R &&& 0x000F_FFFF_FFFF_FFFF = (R.extractLsb' 0 52).setWidth 64 ∧
    maskedField R 63 1 = (R >>> 63) &&& 0x1 ∧ maskedField R 52 11 = (R >>> 52) &&& 0x7FF ∧
    maskedField R 0 52 = R &&& 0x000F_FFFF_FFFF_FFFF) ∧
  ∀ R : Word, (R >>> 31) &&& 0x1 = (R.extractLsb' 31 1).setWidth 32 ∧
    (R >>> 23) &&& 0xFF = (R.extractLsb' 23 8).setWidth 32 ∧ R &&& 0x007F_FFFF = (R.extractLsb' 0 23).setWidth 32 ∧
    maskedField R 31 1 = (R >>> 31) &&& 0x1 ∧ maskedField R 23 8 = (R >>> 23) &&& 0xFF ∧
    maskedField R 0 23 = R &&& 0x007F_FFFF

/-- 41_extract.md R141: EXT32 splits OPA_LO into its three fields, zero-extended, and sets OK, with no special case. -/
def Obligations.ExtractBinary32 : Prop :=
  decode 0x0000_0005#32 = .ok .ext32 ∧
  ∀ s : State, exec .ext32 s = .next (s.setRegs { s.regs with
    fsign := s.regs.opa.extractLsb' 31 1, fexp := (s.regs.opa.extractLsb' 23 8).setWidth 11,
    fmant := (s.regs.opa.extractLsb' 0 23).setWidth 52, status := 0x0000_0001 })

/-- 41_extract.md R142: EXT64 splits OPA into its three fields and sets OK, with no special case. -/
def Obligations.ExtractBinary64 : Prop :=
  decode 0x0000_0006#32 = .ok .ext64 ∧
  ∀ s : State, exec .ext64 s = .next (s.setRegs { s.regs with
    fsign := s.regs.opa.extractLsb' 63 1, fexp := s.regs.opa.extractLsb' 52 11,
    fmant := s.regs.opa.extractLsb' 0 52, status := 0x0000_0001 })

/-- 41_extract.md R145: the fields put back together are the operand: EXT loses no bit. -/
def Obligations.ExtractLosesNoBit : Prop :=
  ∀ s : State,
    (∃ t, exec .ext64 s = .next t ∧ t.regs.fsign ++ t.regs.fexp ++ t.regs.fmant = s.regs.opa) ∧
    ∃ t, exec .ext32 s = .next t ∧
      t.regs.fsign ++ t.regs.fexp.extractLsb' 0 8 ++ t.regs.fmant.extractLsb' 0 23 = s.regs.opa.extractLsb' 0 32

/-- 41_extract.md R143, 00_scope.md R13: the FieldTriple's strings have widths 1/11/52 and 1/8/23, hold '0' and '1'
only, and character i is the field's bit i from the top. -/
def Obligations.FieldStringsHaveFixedWidths : Prop :=
  ∀ s : State,
    (∃ t, exec .ext64 s = .next t ∧ t.regs.fieldTriple64.sign.length = 1 ∧ t.regs.fieldTriple64.exponent.length = 11 ∧
      t.regs.fieldTriple64.mantissa.length = 52 ∧
      (∀ c ∈ t.regs.fieldTriple64.sign ++ t.regs.fieldTriple64.exponent ++ t.regs.fieldTriple64.mantissa,
        c = 0x30 ∨ c = 0x31) ∧
      ∀ i, i < 64 → (t.regs.fieldTriple64.sign ++ t.regs.fieldTriple64.exponent ++ t.regs.fieldTriple64.mantissa)[i]? =
        some (if s.regs.opa.getLsbD (63 - i) then 0x31 else 0x30)) ∧
    ∃ t, exec .ext32 s = .next t ∧ t.regs.fieldTriple32.sign.length = 1 ∧ t.regs.fieldTriple32.exponent.length = 8 ∧
      t.regs.fieldTriple32.mantissa.length = 23 ∧
      (∀ c ∈ t.regs.fieldTriple32.sign ++ t.regs.fieldTriple32.exponent ++ t.regs.fieldTriple32.mantissa,
        c = 0x30 ∨ c = 0x31) ∧
      ∀ i, i < 32 → (t.regs.fieldTriple32.sign ++ t.regs.fieldTriple32.exponent ++ t.regs.fieldTriple32.mantissa)[i]? =
        some (if s.regs.opa.getLsbD (31 - i) then 0x31 else 0x30)

/-- 41_extract.md R146: the route through the hex string and back gives EXT64 the same operand, hence the same fields. -/
def Obligations.LegacyRouteGivesTheSameFields : Prop :=
  ∀ s : State, ∃ t, exec .ext64 s = .next t ∧
    t.regs.fsign = (decValue 64 16 (encBuf 16 s.regs.opa)).extractLsb' 63 1 ∧
    t.regs.fexp = (decValue 64 16 (encBuf 16 s.regs.opa)).extractLsb' 52 11 ∧
    t.regs.fmant = (decValue 64 16 (encBuf 16 s.regs.opa)).extractLsb' 0 52

/-! ### The diff commands -/

/-- 42_diff.md R160: DIFF compares the first min(LA, LB) characters from the left, and a length above 64 is
ILLEGAL_OPERAND with LEN_BAD and nothing else changed. -/
def Obligations.DiffComparesFromTheLeft : Prop :=
  decode 0x0000_0007#32 = .ok .diff ∧
  ∀ s : State,
    (s.regs.la.toNat ≤ 64 → s.regs.lb.toNat ≤ 64 →
      ∃ m, exec .diff s = .next (s.setRegs { s.regs with
          dmask := m, dlen := BitVec.ofNat 7 (min s.regs.la.toNat s.regs.lb.toNat), status := 0x0000_0001 }) ∧
        (∀ i, i < min s.regs.la.toNat s.regs.lb.toNat →
          m.getLsbD (min s.regs.la.toNat s.regs.lb.toNat - 1 - i) =
            (s.regs.opa.getLsbD (s.regs.la.toNat - 1 - i) ^^ s.regs.opb.getLsbD (s.regs.lb.toNat - 1 - i))) ∧
        ∀ j, min s.regs.la.toNat s.regs.lb.toNat ≤ j → m.getLsbD j = false) ∧
    (64 < s.regs.la.toNat ∨ 64 < s.regs.lb.toNat →
      exec .diff s = .next (s.setRegs { s.regs with status := 0x0000_0014 })) ∧
    statusCode 0x0000_0014 = StatusCode.illegalOperand.bits ∧ statusLenBad 0x0000_0014 = true

/-- 42_diff.md R160's corner case: equal lengths n give (A ^ B) & (2^n - 1), and a length of 0 the empty result. -/
def Obligations.DiffOfEqualLengthsIsMaskedXor : Prop :=
  (∀ s : State, s.regs.la = s.regs.lb → s.regs.la.toNat ≤ 64 →
    ∃ t, exec .diff s = .next t ∧ t.regs.dlen = s.regs.la ∧
      t.regs.dmask = (s.regs.opa ^^^ s.regs.opb) &&& BitVec.ofNat 64 (2 ^ s.regs.la.toNat - 1)) ∧
  ∀ s : State, s.regs.la.toNat ≤ 64 → s.regs.lb.toNat ≤ 64 → s.regs.la = 0 ∨ s.regs.lb = 0 →
    ∃ t, exec .diff s = .next t ∧ t.regs.dlen = 0 ∧ t.regs.dmask = 0 ∧ t.regs.status = 0x0000_0001

/-- 42_diff.md R161: for strings a and b over '0' and '1' of at most 64 characters, loaded right-aligned, DIFF's result
is shown as the source's `diff(a, b)`. -/
def Obligations.DiffRendersTheSourceDiff : Prop :=
  ∀ (s : State) (a b : List Byte), a.length ≤ 64 → b.length ≤ 64 →
    renderBin (s.regs.opa.setWidth a.length) = a → renderBin (s.regs.opb.setWidth b.length) = b →
    s.regs.la = BitVec.ofNat 7 a.length → s.regs.lb = BitVec.ofNat 7 b.length →
    ∃ t, exec .diff s = .next t ∧ t.regs.diffString = sourceDiff a b ∧
      t.regs.diffString.length = min a.length b.length

/-- 42_diff.md R162: CMP32 gives OPA_LO ^ OPB_LO zero-extended, DLEN = 32 and OK, and writes nothing else. -/
def Obligations.CompareBinary32 : Prop :=
  decode 0x0000_0008#32 = .ok .cmp32 ∧
  ∀ s : State, exec .cmp32 s = .next (s.setRegs { s.regs with
    dmask := (s.regs.opa.extractLsb' 0 32 ^^^ s.regs.opb.extractLsb' 0 32).setWidth 64, dlen := 32,
    status := 0x0000_0001 })

/-- 42_diff.md R163: CMP64 gives OPA ^ OPB, DLEN = 64 and OK, and writes nothing else. -/
def Obligations.CompareBinary64 : Prop :=
  decode 0x0000_0009#32 = .ok .cmp64 ∧
  ∀ s : State, exec .cmp64 s = .next (s.setRegs { s.regs with
    dmask := s.regs.opa ^^^ s.regs.opb, dlen := 64, status := 0x0000_0001 })

/-- 42_diff.md R164: rendered at the fields' widths, the slices of CMP's result are the source's `diff` of the two
words' field strings. -/
def Obligations.CompareGivesPerFieldDiffs : Prop :=
  ∀ s : State,
    (∃ t a b, exec .cmp64 s = .next t ∧ exec .ext64 s = .next a ∧
      exec .ext64 (s.setRegs { s.regs with opa := s.regs.opb }) = .next b ∧
      t.regs.fieldDiffs64.sign = sourceDiff a.regs.fieldTriple64.sign b.regs.fieldTriple64.sign ∧
      t.regs.fieldDiffs64.exponent = sourceDiff a.regs.fieldTriple64.exponent b.regs.fieldTriple64.exponent ∧
      t.regs.fieldDiffs64.mantissa = sourceDiff a.regs.fieldTriple64.mantissa b.regs.fieldTriple64.mantissa) ∧
    ∃ t a b, exec .cmp32 s = .next t ∧ exec .ext32 s = .next a ∧
      exec .ext32 (s.setRegs { s.regs with opa := s.regs.opb }) = .next b ∧
      t.regs.fieldDiffs32.sign = sourceDiff a.regs.fieldTriple32.sign b.regs.fieldTriple32.sign ∧
      t.regs.fieldDiffs32.exponent = sourceDiff a.regs.fieldTriple32.exponent b.regs.fieldTriple32.exponent ∧
      t.regs.fieldDiffs32.mantissa = sourceDiff a.regs.fieldTriple32.mantissa b.regs.fieldTriple32.mantissa

/-- 42_diff.md R165: CMP64 is DIFF with LA = LB = 64, and CMP32 is DIFF with LA = LB = 32. -/
def Obligations.CompareIsDiffAtFullWidth : Prop :=
  ∀ s : State,
    (∃ t u, exec .cmp64 s = .next t ∧ exec .diff (s.setRegs { s.regs with la := 64, lb := 64 }) = .next u ∧
      t.regs.dmask = u.regs.dmask ∧ t.regs.dlen = u.regs.dlen ∧ t.regs.status = u.regs.status) ∧
    ∃ t u, exec .cmp32 s = .next t ∧ exec .diff (s.setRegs { s.regs with la := 32, lb := 32 }) = .next u ∧
      t.regs.dmask = u.regs.dmask ∧ t.regs.dlen = u.regs.dlen ∧ t.regs.status = u.regs.status

/-! ### Errors, write sets and what commands depend on -/

/-- 60_exceptions.md R192: these six commands always end with CODE = OK. -/
def Obligations.CommandsThatCannotFail : Prop :=
  ∀ i ∈ [Instr.enc32, .enc64, .ext32, .ext64, .cmp32, .cmp64], ∀ s : State,
    ∃ t, exec i s = .next t ∧ statusCode t.regs.status = StatusCode.ok.bits

/-- 60_exceptions.md R190, R195: after any command either CODE is OK, or STATUS is the only thing that changed. -/
def Obligations.FailedCommandsChangeOnlyStatus : Prop :=
  ∀ (i : Instr) (s : State), ∃ t, exec i s = .next t ∧
    (statusCode t.regs.status = StatusCode.ok.bits ∨ t = s.setRegs { s.regs with status := t.regs.status })

/-- 10_state.md R40: a command changes no register outside its write set, on success and on error; success is CODE = OK. -/
def Obligations.CommandsWriteTheirWriteSets : Prop :=
  ∀ (i : Instr) (s : State), ∃ t, exec i s = .next t ∧
    (succeeds i s.regs = true ↔ statusCode t.regs.status = StatusCode.ok.bits) ∧
    (∀ r : Reg, r ∉ writeSet i (succeeds i s.regs) → readReg r t.regs = readReg r s.regs) ∧
    (∀ off : Offset, (∀ r ∈ writeSet i (succeeds i s.regs), slotOf off ≠ r.offset) →
      windowByte off t.regs = windowByte off s.regs) ∧
    t.rst = s.rst ∧ t.pending = s.pending ∧ t.resp = s.resp

/-- 20_memory.md R58, 30_encoding.md R84: two machines that agree on a command's operand registers agree on everything
it writes, whatever else they hold: no command reads a result register, STATUS or CMD. -/
def Obligations.CommandsReadOnlyTheirOperands : Prop :=
  ∀ (i : Instr) (s u : State), (∀ r ∈ readSet i, readReg r s.regs = readReg r u.regs) →
    ∃ t v, exec i s = .next t ∧ exec i u = .next v ∧ succeeds i s.regs = succeeds i u.regs ∧
      ∀ r ∈ writeSet i (succeeds i s.regs), readReg r t.regs = readReg r v.regs

/-! ### The machine as a whole -/

/-- The machine's invariant holds right after reset (70_reset_and_hazards.md R220, R223). -/
def Obligations.InvariantHoldsAtReset : Prop := State.reset.Inv

/-- Every step keeps the invariant (10_state.md R28, R32, R35, 70_reset_and_hazards.md R221, R223): STATUS describes
the word in CMD, HEXOUT holds HEXOUT_LEN lowercase digits and then zeros, DMASK is 0 from DLEN on, an IDLE machine's
results are 0, and rst at 1 holds every register at its reset value. For accesses offered while rst is 1 it rests on the
model's choice that they are dropped (log entry 4). -/
def Obligations.EveryStepKeepsTheInvariant : Prop :=
  ∀ s t : State, s.Inv → step s = .next t → t.Inv

/-- 70_reset_and_hazards.md R225, R228: every run goes on, taking one event a step: no fault, no refusal, and nothing
left in flight. Three of its parts are the model's reading: that an access offered while rst is 1, which R221 says is not
taken, still leaves the list (log entry 4, DESIGN CHOICE), that a BusError is a next state (log entry 1), and that no rule
stops FHX (log entry 14). -/
def Obligations.EveryRunGoesOn : Prop :=
  ∀ (k : Nat) (s : State), ∃ t, Host.Core.run core k s = .next t ∧ t.pending = s.pending.drop k

/-- 70_reset_and_hazards.md R221: a rising rst takes every register to its reset value and the access under way is
lost without a response; while rst is 1 no access is taken and every register holds its reset value; after it falls
the next access sees the reset state. That an access offered while rst is 1 is dropped without a response is the
model's reading (log entry 4). -/
def Obligations.ResetHoldsTheMachine : Prop :=
  (∀ (s : State) (underWay : Option Request), handle (.rstRise underWay) s =
    .next { s with regs := Regs.reset, rst := true, resp := none }) ∧
  (∀ (s : State) (q : Request), s.rst = true → handle (.access q) s = .next { s with regs := Regs.reset, resp := none }) ∧
  (∀ s : State, s.rst = true → handle .rstFall s =
    .next { s with regs := Regs.reset, rst := false, resp := none }) ∧
  ∀ s : State, s.rst = true → s.pending = [] → step s = .next { s with regs := Regs.reset, resp := none }

/-- 70_reset_and_hazards.md R222, 10_state.md R21: with nothing at its port FHX only waits. That such a step leaves the
last response in place is the model's choice (log entries 3 and 6). -/
def Obligations.IdleMachineOnlyWaits : Prop :=
  ∀ (k : Nat) (s : State), s.rst = false → s.pending = [] → Host.Core.run core k s = .next s

/-- 10_state.md R21, R24, 20_memory.md R55, R57: outside reset, only a legal write to CMD changes CMD, STATUS or a result
register. A misaligned or odd-sized access, at CMD too, is among the accesses meant: that its step answers a next state is
the model's reading of R55 (log entry 1), and that the size codes 4–7 are refused so is another (log entry 13). -/
def Obligations.OnlyCommandWritesChangeResults : Prop :=
  ∀ (s : State) (q : Request) (rest : List Event), s.rst = false → s.pending = .access q :: rest →
    Event.writes (Reg.offset .cmd) (.access q) = false →
    ∃ t, step s = .next t ∧ (∀ r ∈ resultRegs, readReg r t.regs = readReg r s.regs) ∧ t.rst = false ∧ t.pending = rest

/-- 20_memory.md R61, 60_exceptions.md R193: a read of an RW register returns the last value written to it, in its defined
bits (10_state.md R26), whatever accesses, commands among them, arrived in between without writing it. These may be
refused ones (20_memory.md R55): that the run goes on after them is the model's reading (log entries 1 and 13). -/
def Obligations.ReadsSeeTheLastWrite : Prop :=
  ∀ (s : State) (r : Reg) (v : Word) (between : List Event), s.rst = false → r.accessKind = .rw →
    (∀ e ∈ between, e.isAccess = true ∧ e.writes r.offset = false) →
    ∃ t, after (.access (wrReg r v) :: (between ++ [.access (rdReg r)])) s = .next t ∧
      t.resp = some (.data (v &&& r.definedMask))

/-- 20_memory.md R56, R55, R62: however another host's reads (or refused accesses) are interleaved with a host's
events, the registers end as if they had not arrived. For accesses offered while rst is 1 this rests on the model's
choice that they are dropped (log entry 4), and for refused ones on its reading of BusError (log entry 1). -/
def Obligations.InterleavedReadsAreInvisible : Prop :=
  ∀ (xs ys zs : List Event) (s : State), Interleaving xs ys zs → (∀ e ∈ ys, e.passive = true) →
    (s.rst = true → s.regs = Regs.reset) →
    ∃ t u, after xs s = .next t ∧ after zs s = .next u ∧ u.regs = t.regs ∧ u.rst = t.rst

/-- 20_memory.md R61: with several events arriving, the machine takes them in order: the run over a list is the run
over its first part, then over the rest. -/
def Obligations.EventsAreTakenInArrivalOrder : Prop :=
  ∀ (xs ys : List Event) (s t : State), after xs s = .next t → after (xs ++ ys) s = after ys t

/-! ### Host assembly -/

/-- 30_encoding.md R88: `wr64`, `wrlens` and `wrhex` leave the operand registers as written, and touch no other. That
`wrlens` takes 32-bit words and a string is a list of 8-bit codes is the model's choice (log entry 17). -/
def Obligations.HostPseudoInstructionsLoadOperands : Prop :=
  ∀ s : State, s.rst = false →
    (∀ v : DWord, ∃ t, after (hostAccesses [.wr64Opa v]) s = .next t ∧ t.regs = { s.regs with opa := v }) ∧
    (∀ v : DWord, ∃ t, after (hostAccesses [.wr64Opb v]) s = .next t ∧ t.regs = { s.regs with opb := v }) ∧
    (∀ la lb : BitVec 7, ∃ t, after (hostAccesses [.wrlens (la.setWidth 32) (lb.setWidth 32)]) s = .next t ∧
      t.regs = { s.regs with la := la, lb := lb }) ∧
    ∀ cs : List Byte, ∃ t buf, after (hostAccesses [.wrhex cs]) s = .next t ∧
      t.regs = { s.regs with hexIn := buf, hexLen := BitVec.ofNat 8 (min cs.length 255) } ∧
      ∀ k, k < 16 → charAt buf k = cs.getD k 0x00

/-- 30_encoding.md R88: `floatToHex64(x)` leaves the 16-character string of x's bits in HEXOUT, `hexToFloat64` of that
string decodes it, reads STATUS = OK and then reads RES_LO = bits[31:0] and RES_HI = bits[63:32]; the 32-bit operations
are the same with 8 characters, RES_HI reading 0. If STATUS.CODE is not OK the host reads no result. That the 32-bit
operations load OPA_LO alone, and that a string is a list of 8-bit codes, is the model's choice (log entry 17). -/
def Obligations.FloatToHexThenHexToFloat : Prop :=
  (∀ (s : State) (bits : DWord), s.rst = false →
    ∃ t u, after (hostAccesses (floatToHex64 bits)) s = .next t ∧ t.regs.hexOutString = encString 16 bits ∧
      after (hostAccesses (hexToFloat64 t.regs.hexOutString)) t = .next u ∧ u.regs.res = bits ∧
      u.resp = some (.data 0x0000_0001) ∧ hexToFloatResult 0x0000_0001 = [.rd .resLo, .rd .resHi] ∧
      responses (hostAccesses (hexToFloatResult 0x0000_0001)) u =
        [some (.data (bits.extractLsb' 0 32)), some (.data (bits.extractLsb' 32 32))]) ∧
  (∀ (s : State) (bits : Word), s.rst = false →
    ∃ t u, after (hostAccesses (floatToHex32 bits)) s = .next t ∧ t.regs.hexOutString = encString 8 bits ∧
      after (hostAccesses (hexToFloat32 t.regs.hexOutString)) t = .next u ∧ u.regs.res = bits.setWidth 64 ∧
      u.resp = some (.data 0x0000_0001) ∧
      responses (hostAccesses (hexToFloatResult 0x0000_0001)) u = [some (.data bits), some (.data 0)]) ∧
  ∀ st : Word, statusCode st ≠ StatusCode.ok.bits → hexToFloatResult st = []

/-! ### What reads answer -/

/-- 10_state.md R27 to R35, 20_memory.md R53: what each register's slot reads, in terms of the state's fields: the HI and
LO slots of OPA, OPB, RES, DMASK and FMANT are the halves of the register, a narrow register is zero-extended, DLENS is LB
at 14:8 and LA at 6:0, and character k of a buffer is byte k mod 4 of its word k div 4. -/
def Obligations.SlotsReadTheStatesFields : Prop :=
  ∀ g : Regs,
    readReg .cmd g = g.cmd ∧ readReg .status g = g.status &&& 0x0000_0F3F ∧
    readReg .opaHi g ++ readReg .opaLo g = g.opa ∧ readReg .opbHi g ++ readReg .opbLo g = g.opb ∧
    (readReg .dlens g).extractLsb' 0 7 = g.la ∧ (readReg .dlens g).extractLsb' 8 7 = g.lb ∧
    readReg .dlens g &&& 0xFFFF_8080 = 0 ∧ readReg .hexLen g = g.hexLen.setWidth 32 ∧
    readReg .hexOutLen g = g.hexOutLen.setWidth 32 ∧ readReg .resHi g ++ readReg .resLo g = g.res ∧
    readReg .fsign g = g.fsign.setWidth 32 ∧ readReg .fexp g = g.fexp.setWidth 32 ∧
    (readReg .fmantHi g).extractLsb' 0 20 ++ readReg .fmantLo g = g.fmant ∧ (readReg .fmantHi g).extractLsb' 20 12 = 0 ∧
    readReg .dmaskHi g ++ readReg .dmaskLo g = g.dmask ∧ readReg .dlen g = g.dlen.setWidth 32 ∧
    ∀ j, j < 4 →
      (readReg .hexIn0 g).extractLsb' (8 * j) 8 = charAt g.hexIn j ∧
      (readReg .hexIn1 g).extractLsb' (8 * j) 8 = charAt g.hexIn (4 + j) ∧
      (readReg .hexIn2 g).extractLsb' (8 * j) 8 = charAt g.hexIn (8 + j) ∧
      (readReg .hexIn3 g).extractLsb' (8 * j) 8 = charAt g.hexIn (12 + j) ∧
      (readReg .hexOut0 g).extractLsb' (8 * j) 8 = charAt g.hexOut j ∧
      (readReg .hexOut1 g).extractLsb' (8 * j) 8 = charAt g.hexOut (4 + j) ∧
      (readReg .hexOut2 g).extractLsb' (8 * j) 8 = charAt g.hexOut (8 + j) ∧
      (readReg .hexOut3 g).extractLsb' (8 * j) 8 = charAt g.hexOut (12 + j)

/-- 20_memory.md R61 points 2 and 3: a command sees the operands as they stood when its CMD write arrived, and a read of
any register right after that write answers what the command left there. -/
def Obligations.ReadsAfterACommandSeeItsResults : Prop :=
  ∀ (s : State) (i : Instr) (r : Reg), s.rst = false →
    ∃ t u, exec i (s.setRegs { s.regs with cmd := encode i }) = .next t ∧
      after [.access (wrReg .cmd (encode i)), .access (rdReg r)] s = .next u ∧
      u.regs = t.regs ∧ u.resp = some (.data (readReg r t.regs))

/-- 30_encoding.md R88: what `rdhex` and `rdfields` answer. `rdhex` reads HEXOUT's four words and HEXOUT_LEN, and after
`floatToHex64` byte j of word i is character 4·i + j of the string; `rdfields` reads FSIGN, FEXP, FMANT_LO and FMANT_HI,
so `fieldsOf64` ends with the four slices of x's bits and `fieldsOf32` with the three fields, FMANT_HI reading 0. That
`fieldsOf32` is two writes before its reads, OPA_LO and CMD, is the model's choice (log entry 17): R88 says only that the
32-bit operations "are the same with the 32-bit commands". -/
def Obligations.HostReadLinesAnswer : Prop :=
  (∀ s : State, s.rst = false →
    responses (hostAccesses [.rdhex]) s = [some (.data (readReg .hexOut0 s.regs)), some (.data (readReg .hexOut1 s.regs)),
      some (.data (readReg .hexOut2 s.regs)), some (.data (readReg .hexOut3 s.regs)),
      some (.data (s.regs.hexOutLen.setWidth 32))] ∧
    responses (hostAccesses [.rdfields]) s = [some (.data (s.regs.fsign.setWidth 32)),
      some (.data (s.regs.fexp.setWidth 32)), some (.data (s.regs.fmant.extractLsb' 0 32)),
      some (.data ((s.regs.fmant.extractLsb' 32 20).setWidth 32))]) ∧
  (∀ (s : State) (bits : DWord), s.rst = false →
    ∃ w0 w1 w2 w3 : Word,
      responses (hostAccesses (floatToHex64 bits)) s = [some .done, some .done, some .done, some (.data w0),
        some (.data w1), some (.data w2), some (.data w3), some (.data 16)] ∧
      ∀ j, j < 4 → w0.extractLsb' (8 * j) 8 = encChar 16 bits j ∧ w1.extractLsb' (8 * j) 8 = encChar 16 bits (4 + j) ∧
        w2.extractLsb' (8 * j) 8 = encChar 16 bits (8 + j) ∧ w3.extractLsb' (8 * j) 8 = encChar 16 bits (12 + j)) ∧
  (∀ (s : State) (bits : DWord), s.rst = false →
    responses (hostAccesses (fieldsOf64 bits)) s = [some .done, some .done, some .done,
      some (.data ((bits.extractLsb' 63 1).setWidth 32)), some (.data ((bits.extractLsb' 52 11).setWidth 32)),
      some (.data (bits.extractLsb' 0 32)), some (.data ((bits.extractLsb' 32 20).setWidth 32))]) ∧
  ∀ (s : State) (bits : Word), s.rst = false →
    responses (hostAccesses (fieldsOf32 bits)) s = [some .done, some .done,
      some (.data ((bits.extractLsb' 31 1).setWidth 32)), some (.data ((bits.extractLsb' 23 8).setWidth 32)),
      some (.data ((bits.extractLsb' 0 23).setWidth 32)), some (.data 0)]
end

