-- ==== Sys2Proof/Laws/State.lean ====
section
/-! SUPPORT. One small lemma per field per update, so that no later proof unfolds a record update. -/

namespace Sys2Proof.Machine

section Port
variable (s : State) (g : Regs) (r : Response) (q : Request)

@[simp] theorem setRegs_regs : (s.setRegs g).regs = g := rfl
@[simp] theorem setRegs_rst : (s.setRegs g).rst = s.rst := rfl
@[simp] theorem setRegs_pending : (s.setRegs g).pending = s.pending := rfl
@[simp] theorem setRegs_resp : (s.setRegs g).resp = s.resp := rfl
@[simp] theorem setRegs_setRegs (h : Regs) : (s.setRegs g).setRegs h = s.setRegs h := rfl
@[simp] theorem setRegs_self : s.setRegs s.regs = s := rfl

@[simp] theorem respond_regs : (s.respond r).regs = s.regs := rfl
@[simp] theorem respond_rst : (s.respond r).rst = s.rst := rfl
@[simp] theorem respond_pending : (s.respond r).pending = s.pending := rfl
@[simp] theorem respond_resp : (s.respond r).resp = some r := rfl

@[simp] theorem holdReset_regs : s.holdReset.regs = Regs.reset := rfl
@[simp] theorem holdReset_rst : s.holdReset.rst = s.rst := rfl
@[simp] theorem holdReset_pending : s.holdReset.pending = s.pending := rfl
@[simp] theorem holdReset_resp : s.holdReset.resp = none := rfl

@[simp] theorem issue_regs : (s.issue q).regs = s.regs := rfl
@[simp] theorem issue_rst : (s.issue q).rst = false := rfl
@[simp] theorem issue_pending : (s.issue q).pending = .access q :: s.pending := rfl
@[simp] theorem issue_resp : (s.issue q).resp = s.resp := rfl

end Port

section Requests
variable (off : Offset) (v : Word)

@[simp] theorem wr_write : (Request.wr off v).write = true := rfl
@[simp] theorem wr_addr : (Request.wr off v).addr = off := rfl
@[simp] theorem wr_wdata : (Request.wr off v).wdata = v := rfl
@[simp] theorem rd_write : (Request.rd off).write = false := rfl
@[simp] theorem rd_addr : (Request.rd off).addr = off := rfl

end Requests

section Registers
variable (g : Regs)

/-- ENC and RTV write HEXOUT and HEXOUT_LEN and nothing else (10_state.md R40). -/
theorem putHexOut_eq (buf : Vector Byte 16) (len : BitVec 5) :
    g.putHexOut buf len = { g with hexOut := buf, hexOutLen := len } := rfl

/-- DEC and RTV write RES and nothing else beside STATUS (10_state.md R40). -/
theorem putRes_eq (v : DWord) : g.putRes v = { g with res := v } := rfl

/-- EXT writes FSIGN, FEXP and FMANT and nothing else beside STATUS (10_state.md R40). -/
theorem putFields_eq (a : BitVec 1) (b : BitVec 11) (c : BitVec 52) :
    g.putFields a b c = { g with fsign := a, fexp := b, fmant := c } := rfl

/-- DIFF and CMP write DMASK and DLEN and nothing else beside STATUS (10_state.md R40). -/
theorem putDiff_eq (m : DWord) (n : BitVec 7) : g.putDiff m n = { g with dmask := m, dlen := n } := rfl

/-- `raise Status` writes STATUS and nothing else (60_exceptions.md R190). -/
theorem raiseStatus_eq (code : StatusCode) (l c : Bool) (f : BitVec 4) :
    g.raiseStatus code l c f = { g with status := statusWord code l c f } := rfl

/-- A command's end writes STATUS and nothing else (10_state.md R28). -/
theorem complete_eq : g.complete = { g with status := 0x0000_0001 } := rfl

/-- An illegal word writes STATUS and nothing else (30_encoding.md R83). -/
theorem illegalCommand_eq : g.illegalCommand = { g with status := 0x0000_0003 } := rfl

end Registers

end Sys2Proof.Machine
end

