-- ==== Sys2Proof/Laws/Codec.lean ====
section
/-! SUPPORT. What the codec's functions compute, character by character and nibble by nibble. -/

namespace Sys2Proof.Machine

@[simp] theorem charAt_lt (buf : Vector Byte 16) (k : Nat) (h : k < 16) : charAt buf k = buf[k] := by
  simp [charAt, h]

/-- Two buffers are equal when their 16 characters are (10_state.md R31). -/
theorem buf_ext {a b : Vector Byte 16} (h : ∀ k, k < 16 → charAt a k = charAt b k) : a = b := by
  apply Vector.ext
  intro k hk
  simpa [charAt, hk] using h k hk

/-- The characters of an encoded word: its digits, then 0x00 (40_codec.md R103, R104). -/
theorem charAt_encBuf (n : Nat) {w : Nat} (r : BitVec w) (k : Nat) (h : k < 16) :
    charAt (encBuf n r) k = if k < n then encChar n r k else 0 := by
  simp [charAt, encBuf, h]

/-- A written buffer word changes its own four characters and no other (10_state.md R31). -/
theorem charAt_setBufWord (buf : Vector Byte 16) (i : Nat) (v : Word) (k : Nat) (h : k < 16) :
    charAt (setBufWord buf i v) k = if k / 4 = i then v.extractLsb' (8 * (k % 4)) 8 else charAt buf k := by
  simp [charAt, setBufWord, h]

/-- `hexval(hexchar(v)) = v` as a step of other proofs: `hexval0` undoes `hexchar`. -/
theorem hexval0_hexchar (v : BitVec 4) : hexval0 (hexchar v) = v := by
  revert v; decide

/-- Every character that `hexchar` gives is a hex digit (40_codec.md R101, R105). -/
theorem hexval_hexchar_isSome (v : BitVec 4) : (hexval (hexchar v)).isSome = true := by
  revert v; decide

/-- A valid character, put in lower case, is the digit of its value (40_codec.md R113). -/
theorem hexchar_hexval0 : ∀ c : Byte, (hexval c).isSome = true → hexchar (hexval0 c) = lower c := by
  decide +kernel

/-- An OR over a list has bit j where one of its terms has (the form `dec_N` and DIFF's mask are written in). -/
theorem foldl_or_getLsbD {w : Nat} (f : Nat → BitVec w) (ks : List Nat) (a : BitVec w) (j : Nat) :
    (ks.foldl (fun acc k => acc ||| f k) a).getLsbD j = (a.getLsbD j || ks.any fun k => (f k).getLsbD j) := by
  induction ks generalizing a with
  | nil => simp
  | cons k ks ih => simp [ih, Bool.or_assoc]

/-- Bit j of `dec_N`: the bit of the digit it falls in (40_codec.md R107). -/
theorem decValue_getLsbD (w n : Nat) (buf : Vector Byte 16) (j : Nat) (hj : j < 4 * n) (hw : j < w) :
    (decValue w n buf).getLsbD j = (hexval0 (charAt buf (n - 1 - j / 4))).getLsbD (j % 4) := by
  rw [decValue, foldl_or_getLsbD, Bool.eq_iff_iff]
  simp only [BitVec.getLsbD_zero, Bool.false_or, List.any_eq_true, List.mem_range, BitVec.getLsbD_shiftLeft,
    BitVec.getLsbD_setWidth, Bool.and_eq_true, Bool.not_eq_true', decide_eq_true_eq, decide_eq_false_iff_not]
  constructor
  · rintro ⟨k, hk, ⟨_, hge⟩, _, hb⟩
    have hlt : j - 4 * (n - 1 - k) < 4 := BitVec.lt_of_getLsbD hb
    have hq : n - 1 - j / 4 = k := by omega
    have hr : j - 4 * (n - 1 - k) = j % 4 := by omega
    rw [hq, ← hr]; exact hb
  · intro hb
    refine ⟨n - 1 - j / 4, by omega, ⟨hw, by omega⟩, by omega, ?_⟩
    have hr : j - 4 * (n - 1 - (n - 1 - j / 4)) = j % 4 := by omega
    rw [hr]; exact hb

/-- The k-th digit of `dec_N` is the value of the k-th character (40_codec.md R107, 20_memory.md R52). -/
theorem decValue_digit (w n : Nat) (buf : Vector Byte 16) (k : Nat) (hk : k < n) (hw : w = 4 * n) :
    (decValue w n buf).extractLsb' (4 * (n - 1 - k)) 4 = hexval0 (charAt buf k) := by
  apply BitVec.eq_of_getLsbD_eq
  intro j hj
  have h1 : n - 1 - (4 * (n - 1 - k) + j) / 4 = k := by omega
  have h2 : (4 * (n - 1 - k) + j) % 4 = j := by omega
  rw [BitVec.getLsbD_extractLsb', decValue_getLsbD w n buf _ (by omega) (by omega), h1, h2]
  simp [hj]

/-- The digits of a word that `enc_N` shows are the word's own (40_codec.md R102). -/
theorem encChar_eq (n : Nat) {w : Nat} (r : BitVec w) (k : Nat) :
    encChar n r k = hexchar (r.extractLsb' (4 * (n - 1 - k)) 4) := rfl

/-- What `check_N`'s scan finds: the lowest bad index below min(LEN, 16) (40_codec.md R106). -/
theorem firstBadIndex_eq_some {len : BitVec 8} {buf : Vector Byte 16} {m : Nat} :
    firstBadIndex len buf = some m ↔
      m < min len.toNat 16 ∧ hexval (charAt buf m) = none ∧ ∀ j, j < m → (hexval (charAt buf j)).isSome = true := by
  simp only [firstBadIndex, scanLen, List.find?_range_eq_some, List.mem_range, Option.isNone_iff_eq_none]
  constructor
  · rintro ⟨h1, h2, h3⟩
    exact ⟨h2, h1, fun j hj => by simpa using h3 j hj⟩
  · rintro ⟨h1, h2, h3⟩
    exact ⟨h2, h1, fun j hj => by simpa using h3 j hj⟩

/-- The scan finds nothing exactly when every character below min(LEN, 16) is a hex digit (40_codec.md R106). -/
theorem firstBadIndex_eq_none {len : BitVec 8} {buf : Vector Byte 16} :
    firstBadIndex len buf = none ↔ ∀ k, k < min len.toNat 16 → (hexval (charAt buf k)).isSome = true := by
  simp [firstBadIndex, scanLen, List.find?_eq_none, Option.isSome_iff_ne_none]

end Sys2Proof.Machine
end

