-- ==== Sys2Proof/Laws/Diff.lean ====
section
/-! SUPPORT. What the 64-bit registers' halves, a buffer's words, DIFF's mask and the field masks are, bit by bit. -/

namespace Sys2Proof.Machine

@[simp] theorem loHalf_getLsbD (v : DWord) (j : Nat) : (loHalf v).getLsbD j = (decide (j < 32) && v.getLsbD j) := by
  simp [loHalf]

@[simp] theorem hiHalf_getLsbD (v : DWord) (j : Nat) :
    (hiHalf v).getLsbD j = (decide (j < 32) && v.getLsbD (32 + j)) := by
  simp [hiHalf]

/-- Bit j of `hi ++ lo`: the LO slot's below 32, the HI slot's from 32 on (20_memory.md R53). -/
theorem append_getLsbD (hi lo : Word) (j : Nat) :
    BitVec.getLsbD (w := 64) (hi ++ lo) j = if j < 32 then lo.getLsbD j else hi.getLsbD (j - 32) := by
  have h := BitVec.getLsbD_append (x := hi) (y := lo) (i := j)
  simpa [Bool.cond_eq_ite] using h

@[simp] theorem loHalf_append (hi lo : Word) : loHalf (hi ++ lo) = lo := by
  apply BitVec.eq_of_getLsbD_eq
  intro j hj
  rw [loHalf_getLsbD, append_getLsbD]
  simp [hj]

@[simp] theorem hiHalf_append (hi lo : Word) : hiHalf (hi ++ lo) = hi := by
  apply BitVec.eq_of_getLsbD_eq
  intro j hj
  rw [hiHalf_getLsbD, append_getLsbD]
  simp [hj]

/-- A 64-bit register is its two slots (00_scope.md R10). -/
@[simp] theorem hiHalf_append_loHalf (v : DWord) : (hiHalf v ++ loHalf v : DWord) = v := by
  apply BitVec.eq_of_getLsbD_eq
  intro j hj
  rw [append_getLsbD]
  by_cases h : j < 32
  · rw [if_pos h, loHalf_getLsbD, decide_eq_true h, Bool.true_and]
  · have h1 : j - 32 < 32 := by omega
    have h2 : 32 + (j - 32) = j := by omega
    rw [if_neg h, hiHalf_getLsbD, decide_eq_true h1, Bool.true_and, h2]

@[simp] theorem loHalf_withLo (v : DWord) (x : Word) : loHalf (withLo v x) = x := loHalf_append _ _
@[simp] theorem hiHalf_withLo (v : DWord) (x : Word) : hiHalf (withLo v x) = hiHalf v := hiHalf_append _ _
@[simp] theorem loHalf_withHi (v : DWord) (x : Word) : loHalf (withHi v x) = loHalf v := loHalf_append _ _
@[simp] theorem hiHalf_withHi (v : DWord) (x : Word) : hiHalf (withHi v x) = x := hiHalf_append _ _

/-- Byte j of a buffer's word is its character j (10_state.md R31, 20_memory.md R51). -/
theorem bufWord_byte (buf : Vector Byte 16) (i j : Nat) (hj : j < 4) :
    (bufWord buf i).extractLsb' (8 * j) 8 = charAt buf (4 * i + j) := by
  apply BitVec.eq_of_getLsbD_eq
  intro b hb
  interval_cases j <;> interval_cases b <;> simp [bufWord]

/-- A word of a buffer reads back as written, and the other words are unchanged (10_state.md R31). -/
theorem bufWord_setBufWord (buf : Vector Byte 16) (i m : Nat) (v : Word) (hm : m < 4) :
    bufWord (setBufWord buf i v) m = if m = i then v else bufWord buf m := by
  apply BitVec.eq_of_getLsbD_eq
  intro b hb
  have h0 := charAt_setBufWord buf i v (4 * m) (by omega)
  have h1 := charAt_setBufWord buf i v (4 * m + 1) (by omega)
  have h2 := charAt_setBufWord buf i v (4 * m + 2) (by omega)
  have h3 := charAt_setBufWord buf i v (4 * m + 3) (by omega)
  have d0 : 4 * m / 4 = m ∧ 4 * m % 4 = 0 := by omega
  have d1 : (4 * m + 1) / 4 = m ∧ (4 * m + 1) % 4 = 1 := by omega
  have d2 : (4 * m + 2) / 4 = m ∧ (4 * m + 2) % 4 = 2 := by omega
  have d3 : (4 * m + 3) / 4 = m ∧ (4 * m + 3) % 4 = 3 := by omega
  rw [d0.1, d0.2] at h0; rw [d1.1, d1.2] at h1; rw [d2.1, d2.2] at h2; rw [d3.1, d3.2] at h3
  unfold bufWord
  rw [h0, h1, h2, h3]
  by_cases hmi : m = i
  · simp only [hmi, if_true]
    interval_cases b <;> simp
  · simp only [hmi, if_false]

/-- Bit j of DIFF's mask is the mismatch of the characters j places left of the strings' common end, for j < n, and 0
above (42_diff.md R160). -/
theorem diffMask_getLsbD (a b : DWord) (la lb n j : Nat) (hn : n ≤ 64) :
    (diffMask a b la lb n).getLsbD j =
      (decide (j < n) && (a.getLsbD (la - 1 - (n - 1 - j)) ^^ b.getLsbD (lb - 1 - (n - 1 - j)))) := by
  rw [diffMask, foldl_or_getLsbD, Bool.eq_iff_iff]
  simp only [BitVec.getLsbD_zero, Bool.false_or, List.any_eq_true, List.mem_range, BitVec.getLsbD_shiftLeft,
    BitVec.getLsbD_setWidth, BitVec.getLsbD_ofBool, Bool.and_eq_true, Bool.not_eq_true', decide_eq_true_eq,
    decide_eq_false_iff_not]
  constructor
  · rintro ⟨i, hi, ⟨_, hge⟩, _, hz, hb⟩
    have hj : n - 1 - j = i := by omega
    exact ⟨by omega, hj ▸ hb⟩
  · rintro ⟨hj, hb⟩
    exact ⟨n - 1 - j, by omega, ⟨by omega, by omega⟩, by omega, by omega, hb⟩

/-- Masking after the shift keeps the field's bits and no other (41_extract.md R140). -/
theorem maskedField_getLsbD {w : Nat} (r : BitVec w) (shift width j : Nat) :
    (maskedField r shift width).getLsbD j = (r.getLsbD (shift + j) && decide (j < w) && decide (j < width)) := by
  simp only [maskedField, BitVec.getLsbD_and, BitVec.getLsbD_ushiftRight, BitVec.getLsbD_ofNat, Nat.testBit_two_pow_sub_one]
  by_cases h1 : j < w <;> by_cases h2 : j < width <;> simp [h1, h2]

end Sys2Proof.Machine
end

