-- ==== Sys2Proof/Laws/PerInstr.lean ====
section
/-! SUPPORT. Statements made of every command as syntax, one lemma per constructor. -/

namespace Sys2Proof.Laws.OneWord

/-- The command is well formed, its word is a well-formed command word of the one format of 30_encoding.md R81 (RSV
clear, OP the word itself), and the decoder reads the command back from it. -/
def Statement (i : Instr) : Prop :=
  i.wellFormed = true ∧ wellFormedWord (encode i) = true ∧ (encode i).extractLsb' 4 28 = 0 ∧ decode (encode i) = .ok i

theorem enc32 : Statement .enc32 := by unfold Statement; decide
theorem enc64 : Statement .enc64 := by unfold Statement; decide
theorem dec32 : Statement .dec32 := by unfold Statement; decide
theorem dec64 : Statement .dec64 := by unfold Statement; decide
theorem ext32 : Statement .ext32 := by unfold Statement; decide
theorem ext64 : Statement .ext64 := by unfold Statement; decide
theorem diff : Statement .diff := by unfold Statement; decide
theorem cmp32 : Statement .cmp32 := by unfold Statement; decide
theorem cmp64 : Statement .cmp64 := by unfold Statement; decide
theorem rtv32 : Statement .rtv32 := by unfold Statement; decide
theorem rtv64 : Statement .rtv64 := by unfold Statement; decide

end Sys2Proof.Laws.OneWord
end

