-- ==== Sys2Proof/Laws/Port.lean ====
section
/-! SUPPORT. Inversion lemmas of the shared operations of the port: the register map, `exec`, `execute`, `hostWrite`,
`access`, `handle` and `step`. Provers cite these instead of unfolding. -/

namespace Sys2Proof.Machine

/-! ### The register map -/

@[simp] theorem ofOffset_offset (r : Reg) : Reg.ofOffset r.offset = some r := by
  cases r <;> decide

/-- A slot holds register `r` exactly when it is at `r`'s offset (10_state.md R24). -/
theorem ofOffset_eq_some {off : Offset} {r : Reg} : Reg.ofOffset off = some r ↔ off = r.offset := by
  constructor
  · intro h
    have := List.find?_some h
    simpa using (beq_iff_eq.mp this).symm
  · rintro rfl
    exact ofOffset_offset r

/-- The slots without a register (10_state.md R25). -/
theorem ofOffset_eq_none : ∀ off : Offset, off.toNat % 4 = 0 →
    (Reg.ofOffset off = none ↔ off = 0x44 ∨ 0x6C ≤ off) := by
  decide +kernel

/-- What makes an access legal, in numbers (20_memory.md R54). -/
theorem legal_iff (q : Request) : q.legal = true ↔ q.addr.toNat % 4 = 0 ∧ q.size = 2 := by
  have h : ∀ a : Offset, (a.extractLsb' 0 2 == 0) = true ↔ a.toNat % 4 = 0 := by
    intro a
    rw [beq_iff_eq, ← BitVec.toNat_inj]
    simp
  simp only [Request.legal, Bool.and_eq_true, h, beq_iff_eq]
  tauto

theorem offset_injective {r r' : Reg} (h : r.offset = r'.offset) : r = r' := by
  have := ofOffset_offset r
  rw [h, ofOffset_offset] at this
  exact (Option.some.inj this).symm

@[simp] theorem readSlot_offset (r : Reg) (g : Regs) : readSlot r.offset g = readReg r g := by
  simp [readSlot]

@[simp] theorem storeSlot_offset (r : Reg) (v : Word) (g : Regs) : storeSlot r.offset v g = storeReg r v g := by
  simp [storeSlot]

theorem offset_aligned (r : Reg) : r.offset.extractLsb' 0 2 = 0 := by
  cases r <;> decide

/-- Register accesses are legal (20_memory.md R54). -/
@[simp] theorem legal_wr_offset (r : Reg) (v : Word) : (Request.wr r.offset v).legal = true := by
  simp [Request.legal, Request.wr, offset_aligned]

@[simp] theorem legal_rd_offset (r : Reg) : (Request.rd r.offset).legal = true := by
  simp [Request.legal, Request.rd, offset_aligned]

/-! ### Commands and steps -/

/-- Each command as the function of the registers that its meaning applies (20_memory.md R57). -/
def commandRegs : Instr → Regs → Regs
  | .enc32 => Regs.enc32
  | .enc64 => Regs.enc64
  | .dec32 => Regs.dec32
  | .dec64 => Regs.dec64
  | .ext32 => Regs.ext32
  | .ext64 => Regs.ext64
  | .diff => Regs.diff
  | .cmp32 => Regs.cmp32
  | .cmp64 => Regs.cmp64
  | .rtv32 => Regs.rtv32
  | .rtv64 => Regs.rtv64

/-- A command always completes and changes registers only: all that `exec` can do. -/
theorem exec_eq (i : Instr) (s : State) : exec i s = .next (s.setRegs (commandRegs i s.regs)) := by
  cases i <;> rfl

theorem enc32_eq (g : Regs) : g.enc32 =
    { g with hexOut := encBuf 8 g.opa32, hexOutLen := 8, status := 0x0000_0001 } := by
  have h : statusOk = 0x0000_0001 := by decide
  simp only [Regs.enc32, Regs.putHexOut, Regs.complete, Config.hex32Len, h]

theorem enc64_eq (g : Regs) : g.enc64 =
    { g with hexOut := encBuf 16 g.opa, hexOutLen := 16, status := 0x0000_0001 } := by
  have h : statusOk = 0x0000_0001 := by decide
  simp only [Regs.enc64, Regs.putHexOut, Regs.complete, Config.hex64Len, h]

/-- The two ends of DEC (40_codec.md R108–R110). -/
theorem decode_valid {g : Regs} {n : Nat} (h : (checkHex n g.hexLen g.hexIn).valid = true) (v : DWord) :
    g.decode n v = { g with res := v, status := 0x0000_0001 } := by
  rw [Regs.decode, if_pos h]; rfl

theorem decode_invalid {g : Regs} {n : Nat} (h : (checkHex n g.hexLen g.hexIn).valid = false) (v : DWord) :
    g.decode n v = { g with status := statusWord .invalidEncoding (checkHex n g.hexLen g.hexIn).lenBad
                              (checkHex n g.hexLen g.hexIn).charBad (checkHex n g.hexLen g.hexIn).firstBad } := by
  rw [Regs.decode, if_neg (by simp [h])]; rfl

/-- RTV, whichever way its comparison goes (40_codec.md R120, R121). -/
theorem roundTrip_eq (g : Regs) (n : Nat) {w : Nat} (r : BitVec w) (len : BitVec 5) :
    g.roundTrip n r len =
      { g with
        hexOut := encBuf n r, hexOutLen := len, res := (decValue w n (encBuf n r)).setWidth 64,
        status := if charsOk n (encBuf n r) && decValue w n (encBuf n r) == r then 0x0000_0001 else 0x0000_0005 } := by
  have h5 : statusWord .roundtripMismatch false false 0 = 0x0000_0005 := by decide
  unfold Regs.roundTrip
  cases hc : (charsOk n (encBuf n r) && decValue w n (encBuf n r) == r) <;>
    simp only [hc, if_true, Bool.false_eq_true, if_false, complete_eq, raiseStatus_eq, putRes_eq, putHexOut_eq, h5]

/-- The two ends of DIFF (42_diff.md R160). -/
theorem diff_legal {g : Regs} (h : ¬(64 < g.la.toNat ∨ 64 < g.lb.toNat)) :
    g.diff =
      { g with
        dmask := diffMask g.opa g.opb g.la.toNat g.lb.toNat (min g.la.toNat g.lb.toNat),
        dlen := BitVec.ofNat 7 (min g.la.toNat g.lb.toNat), status := 0x0000_0001 } := by
  rw [Regs.diff, if_neg h]; rfl

theorem diff_illegal {g : Regs} (h : 64 < g.la.toNat ∨ 64 < g.lb.toNat) :
    g.diff = { g with status := 0x0000_0014 } := by
  rw [Regs.diff, if_pos h]; rfl

theorem cmp32_eq (g : Regs) : g.cmp32 =
    { g with dmask := (g.opa32 ^^^ g.opb32).setWidth 64, dlen := 32, status := 0x0000_0001 } := rfl

theorem cmp64_eq (g : Regs) : g.cmp64 =
    { g with dmask := g.opa ^^^ g.opb, dlen := 64, status := 0x0000_0001 } := rfl

/-- No command writes CMD or an operand register (10_state.md R29, R40). -/
theorem commandRegs_keeps (i : Instr) (g : Regs) :
    (commandRegs i g).cmd = g.cmd ∧ (commandRegs i g).opa = g.opa ∧ (commandRegs i g).opb = g.opb ∧
      (commandRegs i g).la = g.la ∧ (commandRegs i g).lb = g.lb ∧ (commandRegs i g).hexLen = g.hexLen ∧
      (commandRegs i g).hexIn = g.hexIn := by
  cases i
  case enc32 | enc64 | ext32 | ext64 | cmp32 | cmp64 =>
    simp only [commandRegs, Regs.enc32, Regs.enc64, Regs.ext32, Regs.ext64, Regs.cmp32, Regs.cmp64, Regs.putHexOut,
      Regs.putFields, Regs.putDiff, Regs.complete, and_self]
  case dec32 | dec64 =>
    simp only [commandRegs, Regs.dec32, Regs.dec64, Regs.decode]
    split <;> simp only [Regs.raiseStatus, Regs.putRes, Regs.complete, and_self]
  case diff =>
    simp only [commandRegs, Regs.diff]
    split <;> simp only [Regs.raiseStatus, Regs.putDiff, Regs.complete, and_self]
  case rtv32 | rtv64 => simp only [commandRegs, Regs.rtv32, Regs.rtv64, roundTrip_eq, and_self]

/-- `exec_eq` and `commandRegs_keeps` together: a command completes and keeps CMD and the operand registers. -/
theorem exec_cases (i : Instr) (s : State) :
    ∃ g, exec i s = .next (s.setRegs g) ∧ g.cmd = s.regs.cmd ∧ g.opa = s.regs.opa ∧ g.opb = s.regs.opb ∧
      g.la = s.regs.la ∧ g.lb = s.regs.lb ∧ g.hexLen = s.regs.hexLen ∧ g.hexIn = s.regs.hexIn :=
  ⟨_, exec_eq i s, commandRegs_keeps i s.regs⟩

/-- `execute` runs the decoded command, or reports ILLEGAL_COMMAND (30_encoding.md R80, R83). -/
theorem execute_ok {w : Word} {i : Instr} (h : decode w = .ok i) (s : State) : execute w s = exec i s := by
  simp [execute, h]

theorem execute_error {w : Word} {e : DecodeError} (h : decode w = .error e) (s : State) :
    execute w s = .next (s.setRegs { s.regs with status := 0x0000_0003 }) := by
  simp [execute, h, illegalCommand_eq]

/-- A command word always completes and changes registers only. -/
theorem execute_cases (w : Word) (s : State) :
    ∃ g, execute w s = .next (s.setRegs g) ∧ g.cmd = s.regs.cmd ∧ g.opa = s.regs.opa ∧ g.opb = s.regs.opb ∧
      g.la = s.regs.la ∧ g.lb = s.regs.lb ∧ g.hexLen = s.regs.hexLen ∧ g.hexIn = s.regs.hexIn := by
  cases h : decode w with
  | ok i => rw [execute_ok h]; exact exec_cases i s
  | error e => exact ⟨_, execute_error h s, rfl, rfl, rfl, rfl, rfl, rfl, rfl⟩

/-- A write to CMD stores the word and executes it (10_state.md R27). -/
theorem hostWrite_cmd (v : Word) (s : State) :
    hostWrite (Reg.offset .cmd) v s = execute v (s.setRegs { s.regs with cmd := v }) := by
  simp [hostWrite, storeReg]

/-- A write anywhere else only stores (20_memory.md R57). -/
theorem hostWrite_other {off : Offset} (h : off ≠ Reg.offset .cmd) (v : Word) (s : State) :
    hostWrite off v s = .next (s.setRegs (storeSlot off v s.regs)) := by
  simp [hostWrite, ofOffset_eq_some, h]

/-- A write to an RO register stores nothing (10_state.md R26). -/
theorem storeReg_ro {r : Reg} (h : r.accessKind = .ro) (v : Word) (g : Regs) : storeReg r v g = g := by
  cases r <;> first | exact absurd h (by decide) | rfl

/-- The three kinds of access (60_exceptions.md R193's order): BusError, read, write. -/
theorem access_illegal {q : Request} (h : q.legal = false) (s : State) :
    access q s = .next (s.respond (.busError q.addr)) := by
  simp [access, h]

theorem access_read {q : Request} (h : q.legal = true) (hw : q.write = false) (s : State) :
    access q s = .next (s.respond (.data (readSlot q.addr s.regs))) := by
  simp [access, h, hw]

theorem access_write {q : Request} (h : q.legal = true) (hw : q.write = true) (s : State) :
    access q s = completeWrite (hostWrite q.addr q.wdata s) := by
  simp [access, h, hw]

/-- A host write of a register other than CMD stores, and completes (20_memory.md R57). -/
theorem access_wr_other {r : Reg} (hr : r ≠ .cmd) (v : Word) (s : State) :
    access (Request.wr r.offset v) s = .next ((s.setRegs (storeReg r v s.regs)).respond .done) := by
  rw [access_write (legal_wr_offset r v) rfl, wr_addr, wr_wdata, hostWrite_other (fun h => hr (offset_injective h))]
  simp only [storeSlot_offset, completeWrite]

/-- A host write of CMD stores the word, executes it, and completes (10_state.md R27). -/
theorem access_wr_cmd (v : Word) (s : State) :
    access (Request.wr (Reg.offset .cmd) v) s =
      completeWrite (execute v (s.setRegs { s.regs with cmd := v })) := by
  rw [access_write (legal_wr_offset .cmd v) rfl, wr_addr, wr_wdata, hostWrite_cmd]

/-- Every access completes: it changes registers and the response, nothing else of the machine. -/
theorem access_cases (q : Request) (s : State) : ∃ g r, access q s = .next ((s.setRegs g).respond r) := by
  cases hq : q.legal with
  | false => exact ⟨s.regs, _, access_illegal hq s⟩
  | true =>
    cases hw : q.write with
    | false => exact ⟨s.regs, _, access_read hq hw s⟩
    | true =>
      rw [access_write hq hw]
      by_cases hc : q.addr = Reg.offset .cmd
      · rw [hc, hostWrite_cmd]
        obtain ⟨g, hg, -⟩ := execute_cases q.wdata (s.setRegs { s.regs with cmd := q.wdata })
        exact ⟨g, .done, by rw [hg]; rfl⟩
      · rw [hostWrite_other hc]
        exact ⟨_, .done, rfl⟩

/-- Every event completes and leaves what is still to arrive alone. -/
theorem handle_cases (e : Event) (s : State) : ∃ t, handle e s = .next t ∧ t.pending = s.pending := by
  cases e with
  | access q =>
    cases hr : s.rst with
    | true => exact ⟨s.holdReset, by simp [handle, hr], rfl⟩
    | false =>
      obtain ⟨g, r, h⟩ := access_cases q s
      exact ⟨(s.setRegs g).respond r, by simp [handle, hr, h], rfl⟩
  | rstRise u => exact ⟨_, rfl, rfl⟩
  | rstFall =>
    cases hr : s.rst with
    | true => exact ⟨{ s.holdReset with rst := false }, by simp [handle, hr], rfl⟩
    | false => exact ⟨{ s with resp := none }, by simp [handle, hr], rfl⟩

theorem step_nil {s : State} (h : s.pending = []) : step s = idle s := by
  simp [step, h]

theorem step_cons {s : State} {e : Event} {rest : List Event} (h : s.pending = e :: rest) :
    step s = handle e { s with pending := rest } := by
  simp [step, h]

/-- Every step completes and takes one event off what is to arrive (70_reset_and_hazards.md R225). -/
theorem step_cases (s : State) : ∃ t, step s = .next t ∧ t.pending = s.pending.tail := by
  cases hp : s.pending with
  | nil =>
    cases hr : s.rst with
    | true => exact ⟨s.holdReset, by rw [step_nil hp]; simp [idle, hr], by simp [hp]⟩
    | false => exact ⟨s, by rw [step_nil hp]; simp [idle, hr], by simp [hp]⟩
  | cons e rest =>
    rw [step_cons hp]
    exact handle_cases e { s with pending := rest }

/-- Running over a list of events takes them one at a time, in order (20_memory.md R61). -/
theorem after_nil (s : State) : after [] s = .next { s with pending := [] } := rfl

theorem after_cons {e : Event} {es : List Event} {s t : State} (h : handle e { s with pending := es } = .next t) :
    after (e :: es) s = after es t := by
  have hp : t.pending = es := by
    obtain ⟨u, hu, hp⟩ := handle_cases e { s with pending := es }
    rw [hu] at h
    cases h
    exact hp
  have hs : step { s with pending := e :: es } = .next t := h
  subst hp
  simp only [after, List.length_cons, run, hs]

theorem after_one {e : Event} {s t : State} (h : handle e { s with pending := [] } = .next t) :
    after [e] s = .next t := by
  rw [after_cons h, after_nil]
  have hp : t.pending = [] := by
    obtain ⟨u, hu, hp⟩ := handle_cases e { s with pending := [] }
    rw [hu] at h
    cases h
    exact hp
  cases t
  subst hp
  rfl

/-- `run` is the host's own run of the machine. -/
theorem core_run_eq_run (k : Nat) (s : State) : Host.Core.run core k s = run k s := by
  induction k generalizing s with
  | zero => rfl
  | succ k ih =>
    have hs : Host.Core.step core s = step s := rfl
    obtain ⟨t, h, -⟩ := step_cases s
    simp only [run, h]
    rw [← ih t]
    simp only [Host.Core.run]
    rw [hs, h]

/-! ### Each event as a function of the registers and rst

`handled` is a total, pure form of `handle`: a run over a list of events is a fold of it (`after_eq`). -/

/-- The registers after a word is written to CMD (10_state.md R27). -/
def wordRegs (w : Word) (g : Regs) : Regs :=
  match decode w with
  | .ok i => commandRegs i { g with cmd := w }
  | .error _ => { g with cmd := w, status := 0x0000_0003 }

/-- The registers after an access (20_memory.md R55–R57). -/
def accessRegs (q : Request) (g : Regs) : Regs :=
  if q.legal && q.write then
    if q.addr = Reg.offset .cmd then wordRegs q.wdata g else storeSlot q.addr q.wdata g
  else g

/-- The response to an access (20_memory.md R55–R57, R68). -/
def accessResponse (q : Request) (g : Regs) : Response :=
  if q.legal then (if q.write then .done else .data (readSlot q.addr g)) else .busError q.addr

/-- The machine after an event. -/
def handled (e : Event) (s : State) : State :=
  match e with
  | .access q =>
    if s.rst then s.holdReset else (s.setRegs (accessRegs q s.regs)).respond (accessResponse q s.regs)
  | .rstRise _ => { s.holdReset with rst := true }
  | .rstFall => if s.rst then { s.holdReset with rst := false } else { s with resp := none }

theorem execute_eq (w : Word) (s : State) :
    execute w (s.setRegs { s.regs with cmd := w }) = .next (s.setRegs (wordRegs w s.regs)) := by
  cases h : decode w with
  | ok i => rw [execute_ok h, exec_eq]; simp only [wordRegs, h]; rfl
  | error e => rw [execute_error h]; simp only [wordRegs, h]; rfl

theorem access_eq (q : Request) (s : State) :
    access q s = .next ((s.setRegs (accessRegs q s.regs)).respond (accessResponse q s.regs)) := by
  cases hq : q.legal with
  | false => rw [access_illegal hq]; simp only [accessRegs, accessResponse, hq]; rfl
  | true =>
    cases hw : q.write with
    | false => rw [access_read hq hw]; simp only [accessRegs, accessResponse, hq, hw]; rfl
    | true =>
      rw [access_write hq hw]
      by_cases hc : q.addr = Reg.offset .cmd
      · rw [hc, hostWrite_cmd, execute_eq]; simp [accessRegs, accessResponse, hq, hw, hc, completeWrite]
      · rw [hostWrite_other hc]; simp [accessRegs, accessResponse, hq, hw, hc, completeWrite]

theorem handle_eq (e : Event) (s : State) : handle e s = .next (handled e s) := by
  cases e with
  | access q => simp only [handle, handled, access_eq]; split <;> rfl
  | rstRise u => rfl
  | rstFall => simp only [handle, handled]; split <;> rfl

@[simp] theorem handled_pending (e : Event) (s : State) : (handled e s).pending = s.pending := by
  cases e <;> simp only [handled] <;> first | rfl | (split <;> rfl)

/-- What an event does depends on the registers and rst alone. -/
theorem handled_with (e : Event) (s : State) (p : List Event) (r : Option Response) :
    handled e { s with pending := p, resp := r } =
      { handled e s with pending := p, resp := (handled e { s with resp := r }).resp } := by
  cases e <;> simp only [handled] <;> first | rfl | (split <;> rfl)

theorem handled_pend (e : Event) (s : State) (p : List Event) :
    handled e { s with pending := p } = { handled e s with pending := p } := handled_with e s p s.resp

/-- An illegal access or a read keeps the registers (20_memory.md R55, R56). -/
theorem accessRegs_passive {q : Request} (h : Event.passive (.access q) = true) (g : Regs) : accessRegs q g = g := by
  simp only [Event.passive, Bool.or_eq_true, Bool.not_eq_true'] at h
  rcases h with h | h <;> simp [accessRegs, h]

/-- A run over a list of events is a fold of `handled` (20_memory.md R61). -/
theorem after_eq (es : List Event) (s : State) :
    after es s = .next { es.foldl (fun t e => handled e t) s with pending := [] } := by
  induction es generalizing s with
  | nil => rfl
  | cons e es ih =>
    rw [after_cons (handle_eq e _), ih, handled_pend]
    have h : ∀ (es : List Event) (t : State) (p : List Event),
        es.foldl (fun t e => handled e t) { t with pending := p } =
          { es.foldl (fun t e => handled e t) t with pending := p } := by
      intro es
      induction es with
      | nil => intro t p; rfl
      | cons e es ih => intro t p; rw [List.foldl_cons, handled_pend, ih]; rfl
    rw [h]
    rfl

/-- The responses over a list of events are those of `handled`, one event after another (20_memory.md R61, R68). -/
theorem responses_cons (e : Event) (es : List Event) (s : State) :
    responses (e :: es) s = (handled e s).resp :: responses es { handled e s with pending := [] } := by
  simp only [responses, after_eq, List.foldl_cons, List.foldl_nil]

/-- A register access outside reset, as `handled` takes it: a read answers the register (20_memory.md R56). -/
theorem handled_rd (r : Reg) {s : State} (h : s.rst = false) :
    handled (.access (Request.rd r.offset)) s = s.respond (.data (readReg r s.regs)) := by
  have hr := access_eq (Request.rd r.offset) s
  rw [access_read (legal_rd_offset r) rfl] at hr
  simp only [handled, h, Bool.false_eq_true, if_false]
  rw [← Host.Outcome.next.inj hr]
  simp [Request.rd]

/-- A write of a register other than CMD stores and completes (20_memory.md R57). -/
theorem handled_wr {r : Reg} (hr : r ≠ .cmd) (v : Word) {s : State} (h : s.rst = false) :
    handled (.access (Request.wr r.offset v)) s = (s.setRegs (storeReg r v s.regs)).respond .done := by
  have ha := access_eq (Request.wr r.offset v) s
  rw [access_wr_other hr] at ha
  simp only [handled, h, Bool.false_eq_true, if_false]
  exact (Host.Outcome.next.inj ha).symm

/-- A command's word written to CMD runs the command and completes (10_state.md R27). -/
theorem handled_cmd (i : Instr) {s : State} (h : s.rst = false) :
    handled (.access (Request.wr (Reg.offset .cmd) (encode i))) s =
      (s.setRegs (commandRegs i { s.regs with cmd := encode i })).respond .done := by
  have ha := access_eq (Request.wr (Reg.offset .cmd) (encode i)) s
  rw [access_wr_cmd, execute_eq] at ha
  have hd : decode (encode i) = .ok i := by cases i <;> decide
  simp only [handled, h, Bool.false_eq_true, if_false]
  rw [← Host.Outcome.next.inj ha]
  simp only [wordRegs, hd]

/-! The three lemmas below rewrite a host program's responses one line at a time. -/

theorem responses_rd (r : Reg) (es : List Event) {s : State} (h : s.rst = false) :
    responses (.access (rdReg r) :: es) s = some (.data (readReg r s.regs)) ::
      responses es { s with pending := [], resp := some (.data (readReg r s.regs)) } := by
  rw [responses_cons, rdReg, handled_rd r h]
  rfl

theorem responses_wr {r : Reg} (hr : r ≠ .cmd) (v : Word) (es : List Event) {s : State} (h : s.rst = false) :
    responses (.access (wrReg r v) :: es) s = some .done ::
      responses es { s with regs := storeReg r v s.regs, pending := [], resp := some .done } := by
  rw [responses_cons, wrReg, handled_wr hr v h]
  rfl

theorem responses_cmd (i : Instr) (es : List Event) {s : State} (h : s.rst = false) :
    responses (.access (wrReg .cmd (encode i)) :: es) s = some .done ::
      responses es
        { s with regs := commandRegs i { s.regs with cmd := encode i }, pending := [], resp := some .done } := by
  rw [responses_cons, wrReg, handled_cmd i h]
  rfl

end Sys2Proof.Machine
end

