-- ==== Sys2Proof/Tests/Slice0.lean ====
section
/-! SUPPORT. Tests of one step each, with expected values from the spec (95_test_vectors.md's vector ids, or the rule
named), and for every obligation that has hypotheses a witness that meets them. -/

namespace Sys2Proof.Tests

open Sys2Proof Sys2Proof.Machine

/-! ### Helpers -/

/-- The state a step goes on in, if it does. -/
def nextOf : Host.Outcome State Fault Refusal → Option State
  | .next s => some s
  | .fault _ => none
  | .refused _ => none

/-- The reset machine with other registers. -/
def withRegs (g : Regs) : State := { State.reset with regs := g }

/-- The registers after one step that runs the command word. -/
def runWord (w : Nat) (g : Regs) : Option Regs := (nextOf (step ((withRegs g).withFetchWord 32 w))).map State.regs

/-- The registers and the response after one access. -/
def runAccess (q : Request) (g : Regs) : Option (Regs × Option Response) :=
  (nextOf (step { withRegs g with pending := [.access q] })).map fun t => (t.regs, t.resp)

/-- A character buffer that holds a string. -/
def bufOf (chars : List Byte) : Vector Byte 16 := Vector.ofFn fun k => hostChar chars k.val

/-- The four words of HEXOUT, its length and STATUS. -/
def shown (g : Regs) : List Word :=
  [readReg .hexOut0 g, readReg .hexOut1 g, readReg .hexOut2 g, readReg .hexOut3 g, readReg .hexOutLen g,
    readReg .status g]

/-- STATUS and RES. -/
def decoded (g : Regs) : List Word := [readReg .status g, readReg .resHi g, readReg .resLo g]

/-- FSIGN, FEXP, FMANT_HI and FMANT_LO. -/
def fields (g : Regs) : List Word := [readReg .fsign g, readReg .fexp g, readReg .fmantHi g, readReg .fmantLo g]

/-- STATUS, DMASK and DLEN. -/
def compared (g : Regs) : List Word :=
  [readReg .status g, readReg .dmaskHi g, readReg .dmaskLo g, readReg .dlen g]

/-- "3dcccccd" (the source's string of 0.1f). -/
def string3dcccccd : List Byte := [0x33, 0x64, 0x63, 0x63, 0x63, 0x63, 0x63, 0x64]

/-- "3dcccccg". -/
def string3dcccccg : List Byte := [0x33, 0x64, 0x63, 0x63, 0x63, 0x63, 0x63, 0x67]

/-- "3fF00000000000A1". -/
def stringMixedCase : List Byte :=
  [0x33, 0x66, 0x46, 0x30, 0x30, 0x30, 0x30, 0x30, 0x30, 0x30, 0x30, 0x30, 0x30, 0x30, 0x41, 0x31]

/-- "3ff000000000000g". -/
def stringBadLast : List Byte :=
  [0x33, 0x66, 0x66, 0x30, 0x30, 0x30, 0x30, 0x30, 0x30, 0x30, 0x30, 0x30, 0x30, 0x30, 0x30, 0x67]

/-! ### WellFormed refuses ill-formed words (30_encoding.md R81, R83) -/

theorem test_reserved_bit_4_is_ill_formed : reservedBitsClear 0x0000_0011 = false := by decide
theorem test_reserved_bit_31_is_ill_formed : reservedBitsClear 0x8000_0002 = false := by decide
theorem test_opcode_0_is_ill_formed : opcodeDefined 0x0000_0000 = false := by decide
theorem test_opcode_C_is_ill_formed : opcodeDefined 0x0000_000C = false := by decide
theorem test_word_F_is_ill_formed : wellFormedWord 0x0000_000F = false := by decide
theorem test_word_1B_is_ill_formed : wellFormedWord 0x0000_001B = false := by decide
theorem test_word_B_is_well_formed : wellFormedWord 0x0000_000B = true := by decide

/-! ### Decoding (30_encoding.md R82's column "word", bit by bit: RSV = 28 zeros, then OP) -/

theorem test_decode_enc32 : decode 0b0000_0000_0000_0000_0000_0000_0000_0001#32 = .ok .enc32 := by decide
theorem test_decode_enc64 : decode 0b0000_0000_0000_0000_0000_0000_0000_0010#32 = .ok .enc64 := by decide
theorem test_decode_dec32 : decode 0b0000_0000_0000_0000_0000_0000_0000_0011#32 = .ok .dec32 := by decide
theorem test_decode_dec64 : decode 0b0000_0000_0000_0000_0000_0000_0000_0100#32 = .ok .dec64 := by decide
theorem test_decode_ext32 : decode 0b0000_0000_0000_0000_0000_0000_0000_0101#32 = .ok .ext32 := by decide
theorem test_decode_ext64 : decode 0b0000_0000_0000_0000_0000_0000_0000_0110#32 = .ok .ext64 := by decide
theorem test_decode_diff : decode 0b0000_0000_0000_0000_0000_0000_0000_0111#32 = .ok .diff := by decide
theorem test_decode_cmp32 : decode 0b0000_0000_0000_0000_0000_0000_0000_1000#32 = .ok .cmp32 := by decide
theorem test_decode_cmp64 : decode 0b0000_0000_0000_0000_0000_0000_0000_1001#32 = .ok .cmp64 := by decide
theorem test_decode_rtv32 : decode 0b0000_0000_0000_0000_0000_0000_0000_1010#32 = .ok .rtv32 := by decide
theorem test_decode_rtv64 : decode 0b0000_0000_0000_0000_0000_0000_0000_1011#32 = .ok .rtv64 := by decide
theorem test_decode_table_word : decodeTableWord 32 0xB = some .rtv64 ∧ decodeTableWord 32 0x0 = none ∧
    decodeTableWord 32 0xC = none ∧ decodeTableWord 32 0x8000_0002 = none := by decide

/-! ### The commands -/

/-- V-ENC-5: OPA_HI is ignored. -/
theorem test_enc32_ignores_hi :
    (runWord 0x1 { Regs.reset with opa := 0xDEAD_BEEF_1234_5678 }).map shown =
      some [0x3433_3231, 0x3837_3635, 0, 0, 8, 1] := by decide

/-- V-ENC-11: ENC32 clears characters 8–15. -/
theorem test_enc32_clears_rest :
    (runWord 0x1 { Regs.reset with opa := 0xFFFF_FFFF_ABCD_EF01, hexOut := Vector.replicate 16 0x66, hexOutLen := 16 }).map
      shown = some [0x6463_6261, 0x3130_6665, 0, 0, 8, 1] := by decide

/-- V-ENC-9: every digit once. -/
theorem test_enc64_digit_order :
    (runWord 0x2 { Regs.reset with opa := 0x0123_4567_89AB_CDEF }).map shown =
      some [0x3332_3130, 0x3736_3534, 0x6261_3938, 0x6665_6463, 16, 1] := by decide

/-- V-ENC-12: a NaN payload. -/
theorem test_enc64_payload :
    (runWord 0x2 { Regs.reset with opa := 0x7FF8_0000_0000_0001 }).map shown =
      some [0x3866_6637, 0x3030_3030, 0x3030_3030, 0x3130_3030, 16, 1] := by decide

/-- V-DEC-11, V-DEC-19: RES_HI becomes 0. -/
theorem test_dec32_value :
    (runWord 0x3 { Regs.reset with hexIn := bufOf string3dcccccd, hexLen := 8, res := 0xFFFF_FFFF_FFFF_FFFF }).map decoded =
      some [1, 0, 0x3DCC_CCCD] := by decide

/-- V-DEC-12: the last character is bad. -/
theorem test_dec32_bad_character :
    (runWord 0x3 { Regs.reset with hexIn := bufOf string3dcccccg, hexLen := 8 }).map decoded = some [0x722, 0, 0] := by
  decide

/-- V-DEC-3: mixed case. -/
theorem test_dec64_mixed_case :
    (runWord 0x4 { Regs.reset with hexIn := bufOf stringMixedCase, hexLen := 16 }).map decoded =
      some [1, 0x3FF0_0000, 0x0000_00A1] := by decide

/-- V-DEC-8, V-DEC-17: both causes, and RES keeps its value. -/
theorem test_dec64_both_causes :
    (runWord 0x4 { Regs.reset with hexIn := bufOf stringBadLast, hexLen := 255, res := 0xC0C5_B380_0000_0000 }).map decoded =
      some [0xF32, 0xC0C5_B380, 0] := by decide

/-- V-EXT-9: OPA_HI is ignored. -/
theorem test_ext32_fields :
    (runWord 0x5 { Regs.reset with opa := 0xFFFF_FFFF_3DCC_CCCD }).map fields = some [0, 0x07B, 0, 0x004C_CCCD] := by decide

/-- V-EXT-10: EXT32 clears the high bits of FEXP and FMANT. -/
theorem test_ext32_clears_high_bits :
    (runWord 0x5 { Regs.reset with
      opa := 0xFFFF_FFFF_0000_0001, fsign := 1, fexp := 0x7FF, fmant := 0xF_FFFF_FFFF_FFFF }).map fields =
        some [0, 0, 0, 1] := by decide

/-- V-EXT-2: −11111.0. -/
theorem test_ext64_fields :
    (runWord 0x6 { Regs.reset with opa := 0xC0C5_B380_0000_0000 }).map fields = some [1, 0x40C, 0x0005_B380, 0] := by decide

/-- V-EXT-5: all-zero exponent, all-ones mantissa. -/
theorem test_ext64_mantissa :
    (runWord 0x6 { Regs.reset with opa := 0x000F_FFFF_FFFF_FFFF }).map fields =
      some [0, 0, 0x000F_FFFF, 0xFFFF_FFFF] := by decide

/-- V-DIFF-4: the leading 8 characters are compared, not the low bits. -/
theorem test_diff_unequal_lengths :
    (runWord 0x7 { Regs.reset with opa := 0x3FB, opb := 0x7B, la := 11, lb := 8 }).map compared = some [1, 0, 4, 8] := by
  decide

/-- V-DIFF-9: LA = 65 keeps the earlier result. -/
theorem test_diff_too_long :
    (runWord 0x7 { Regs.reset with opa := 3, opb := 2, la := 65, lb := 4, dmask := 1, dlen := 4 }).map compared =
      some [0x14, 0, 1, 4] := by decide

/-- V-CMP-1. -/
theorem test_cmp32_mask :
    (runWord 0x8 { Regs.reset with opa := 0x3DCC_CCCD, opb := 0x4CBE_BC21 }).map compared =
      some [1, 0, 0x7172_70EC, 32] := by decide

/-- V-CMP-4: the HI halves are ignored, and DMASK_HI becomes 0. -/
theorem test_cmp32_ignores_hi :
    (runWord 0x8 { Regs.reset with
      opa := 0xFFFF_FFFF_0000_0001, opb := 1, dmask := 0xFFFF_FFFF_FFFF_FFFF, dlen := 64 }).map compared =
        some [1, 0, 0, 32] := by decide

/-- V-CMP-5: 0.1 against 100000001.0. -/
theorem test_cmp64_mask :
    (runWord 0x9 { Regs.reset with opa := 0x3FB9_9999_9999_999A, opb := 0x4197_D784_0400_0000 }).map compared =
      some [1, 0x7E2E_4E1D, 0x9D99_999A, 64] := by decide

/-- V-CMP-6: the sign alone. -/
theorem test_cmp64_sign :
    (runWord 0x9 { Regs.reset with opa := 0x3FF0_0000_0000_0000, opb := 0xBFF0_0000_0000_0000 }).map compared =
      some [1, 0x8000_0000, 0, 64] := by decide

/-- V-RTV-1: HEXOUT and STATUS. -/
theorem test_rtv32_string :
    (runWord 0xA { Regs.reset with opa := 0x7FA0_0001 }).map shown =
      some [0x3061_6637, 0x3130_3030, 0, 0, 8, 1] := by decide

/-- V-RTV-4: OPA_HI is ignored and RES_HI is 0. -/
theorem test_rtv32_result :
    (runWord 0xA { Regs.reset with opa := 0xFFFF_FFFF_3F80_0000 }).map decoded = some [1, 0, 0x3F80_0000] := by decide

/-- V-RTV-3: HEXOUT and STATUS. -/
theorem test_rtv64_string :
    (runWord 0xB { Regs.reset with opa := 0x3FB9_9999_9999_999A }).map shown =
      some [0x3962_6633, 0x3939_3939, 0x3939_3939, 0x6139_3939, 16, 1] := by decide

/-- V-RTV-2: RES. -/
theorem test_rtv64_result :
    (runWord 0xB { Regs.reset with opa := 0x8000_0000_0000_0000 }).map decoded = some [1, 0x8000_0000, 0] := by decide

/-! ### Illegal words and the port -/

/-- V-SYS-4: CMD reads back the word, STATUS is ILLEGAL_COMMAND, nothing else changes. -/
theorem test_illegal_word_11 : runWord 0x11 Regs.reset = some { Regs.reset with cmd := 0x11, status := 3 } := by decide

/-- V-SYS-5: bit 31 set on ENC64's word. -/
theorem test_illegal_word_bit_31 :
    runWord 0x8000_0002 Regs.reset = some { Regs.reset with cmd := 0x8000_0002, status := 3 } := by decide

/-- V-SYS-1: word 0. -/
theorem test_illegal_word_0 : runWord 0 Regs.reset = some { Regs.reset with status := 3 } := by decide

/-- V-SYS-7: STATUS is read-only. -/
theorem test_write_status_ignored :
    runAccess (Request.wr 0x04 0xFFFF_FFFF) Regs.reset = some (Regs.reset, some .done) := by decide

/-- V-SYS-8: DLENS stores its two fields. -/
theorem test_write_dlens_stores_fields :
    (runAccess (Request.wr 0x18 0xFFFF_FFFF) Regs.reset).map (fun p => readReg .dlens p.1) = some 0x0000_7F7F := by decide

/-- V-SYS-8: HEXLEN stores LEN. -/
theorem test_write_hexlen_stores_len :
    (runAccess (Request.wr 0x1C 0x0000_1234) Regs.reset).map (fun p => readReg .hexLen p.1) = some 0x0000_0034 := by decide

/-- V-SYS-9: a reserved slot reads 0. -/
theorem test_read_reserved_slot : runAccess (Request.rd 0x44) Regs.reset = some (Regs.reset, some (.data 0)) := by decide

/-- V-SYS-12: a misaligned read. -/
theorem test_misaligned_read :
    runAccess { write := false, addr := 0x02, size := 2, wdata := 0 } { Regs.reset with opa := 0x1111_1111 } =
      some ({ Regs.reset with opa := 0x1111_1111 }, some (.busError 0x02)) := by decide

/-- V-SYS-13: a byte write. -/
theorem test_byte_write :
    runAccess { write := true, addr := 0x09, size := 0, wdata := 0xAB } { Regs.reset with opa := 0x1111_1111 } =
      some ({ Regs.reset with opa := 0x1111_1111 }, some (.busError 0x09)) := by decide

/-- V-SYS-15: an 8-byte read at an aligned offset. -/
theorem test_eight_byte_read :
    runAccess { write := false, addr := 0x08, size := 3, wdata := 0 } Regs.reset =
      some (Regs.reset, some (.busError 0x08)) := by decide

/-- V-SYS-16: a misaligned write near CMD runs nothing. -/
theorem test_misaligned_write_near_cmd :
    runAccess { write := true, addr := 0x01, size := 2, wdata := 1 } Regs.reset =
      some (Regs.reset, some (.busError 0x01)) := by decide

/-- R53, R57: a write of OPA_HI keeps OPA_LO. -/
theorem test_write_opa_hi :
    (runAccess (Request.wr 0x0C 0x3FF0_0000) { Regs.reset with opa := 0x9999_999A }).map (fun p => p.1.opa) =
      some 0x3FF0_0000_9999_999A := by decide

/-- R31: HEXIN1 holds characters 4–7, character 4 in bits 7:0 (P1's "0000" and V-RTV-5's lane order). -/
theorem test_write_hexin1 :
    (runAccess (Request.wr 0x24 0x3433_3231) Regs.reset).map
      (fun p => ((List.range 9).map (charAt p.1.hexIn), readReg .hexIn1 p.1)) =
        some ([0, 0, 0, 0, 0x31, 0x32, 0x33, 0x34, 0], 0x3433_3231) := by decide

/-- R221: rst rises during an ENC64 write: every register is 0 and there is no response. -/
theorem test_reset_loses_access :
    nextOf (step { withRegs { Regs.reset with opa := 1, status := 3 } with
      pending := [.rstRise (some (Request.wr 0x00 2))], resp := some .done }) =
        some { State.reset with rst := true } := by decide

/-- R88, P4 line 3: `wrlens 11, 8` is `W 18 0000080B`. -/
theorem test_wrlens_expansion : HostLine.expand (.wrlens 11 8) = [Request.wr 0x18 0x0000_080B] := by decide

/-- R88, P3 line 1: `wr64 OPA` is the LO half, then the HI half. -/
theorem test_wr64_expansion : HostLine.expand (.wr64Opa 0xC0C5_B380_0000_0000) =
    [Request.wr 0x08 0x0000_0000, Request.wr 0x0C 0xC0C5_B380] := by decide

/-- R88, V-RTV-5: `wrhex "zz"` writes 0x0000_7A7A, three words of 0, and the length 2. -/
theorem test_wrhex_expansion : HostLine.expand (.wrhex [0x7A, 0x7A]) =
    [Request.wr 0x20 0x0000_7A7A, Request.wr 0x24 0, Request.wr 0x28 0, Request.wr 0x2C 0, Request.wr 0x1C 2] := by
  decide

/-- V-DIFF-4's string "-----x--". -/
theorem test_render_diff : renderDiff 8 (4#64) = [0x2D, 0x2D, 0x2D, 0x2D, 0x2D, 0x78, 0x2D, 0x2D] := by decide

/-- S8: the exponent string of 0.1, "01111111011". -/
theorem test_render_bin : renderBin (0x3FB#11) =
    [0x30, 0x31, 0x31, 0x31, 0x31, 0x31, 0x31, 0x31, 0x30, 0x31, 0x31] := by decide

/-! ### Witnesses: the hypotheses of each obligation can be met -/

/-- The reset machine with one access to arrive. -/
def offered (q : Request) : State := { State.reset with pending := [.access q] }

/-- The reset machine held by rst. -/
def held : State := { State.reset with rst := true }

theorem witness_ResetLeavesEveryRegisterZero :
    ((0x44 : Offset) = 0x44 ∨ (0x6C : Offset) ≤ 0x44) ∧ ((0x6C : Offset) = 0x44 ∨ (0x6C : Offset) ≤ 0x6C) ∧
      ((0xFF : Offset) = 0x44 ∨ (0x6C : Offset) ≤ 0xFF) := by decide

theorem witness_RegisterMapIsOneToOne :
    Reg.ofOffset 0x00 = some .cmd ∧ Reg.ofOffset 0x68 = some .dlen ∧ (0x44 : Offset).toNat % 4 = 0 ∧
      (0xFC : Offset).toNat % 4 = 0 := by decide

theorem witness_ReservedSlotsReadZeroAndIgnoreWrites :
    ((0x44 : Offset).toNat % 4 = 0 ∧ ((0x44 : Offset) = 0x44 ∨ (0x6C : Offset) ≤ 0x44)) ∧
      ((0x6C : Offset).toNat % 4 = 0 ∧ (0x6C : Offset) ≤ 0x6C) ∧ (0xFC : Offset).toNat % 4 = 0 ∧
      (0x6C : Offset) ≤ 0xFC := by decide

theorem witness_ReadOnlyRegistersAndReservedBits :
    (0x0000_0010 : Word).extractLsb' 4 28 ≠ 0 ∧ (0x8000_0002 : Word).extractLsb' 4 28 ≠ 0 := by decide

theorem witness_HostReadReturnsTheRegister :
    ((Request.rd 0x08).write = false ∧ (Request.rd 0x08).addr.toNat % 4 = 0 ∧ (Request.rd 0x08).size = 2) ∧
      ((Request.rd 0x44).addr.toNat % 4 = 0 ∧ (Request.rd 0x44).addr = 0x44) ∧
      (Request.rd 0xFC).addr.toNat % 4 = 0 ∧ 0x6C ≤ (Request.rd 0xFC).addr := by decide

theorem witness_BadAccessGetsBusErrorAndChangesNothing :
    let misaligned : Request := { write := true, addr := 0x01, size := 2, wdata := 1 }
    let byteWrite : Request := { write := true, addr := 0x00, size := 0, wdata := 1 }
    ((offered misaligned).rst = false ∧ (offered misaligned).pending = .access misaligned :: [] ∧
        misaligned.addr.toNat % 4 ≠ 0) ∧
      (offered byteWrite).rst = false ∧ (offered byteWrite).pending = .access byteWrite :: [] ∧ byteWrite.size ≠ 2 := by
  decide

theorem witness_HostWriteStoresOnlyItsRegister :
    (Reg.accessKind .opaLo = .rw ∧ Reg.opaLo ≠ .cmd) ∧
      ((0x04 : Offset).toNat % 4 = 0 ∧ ∀ r ∈ Reg.all, Reg.ofOffset 0x04 = some r → r.accessKind = .ro) ∧
      (0x44 : Offset).toNat % 4 = 0 ∧ ∀ r ∈ Reg.all, Reg.ofOffset 0x44 = some r → r.accessKind = .ro := by decide

/-- A legal CMD write, a misaligned write and a byte write at CMD. -/
theorem witness_WritesAreIdempotent :
    ((Request.wr 0x00 2).write = true ∧ (Request.wr 0x00 2).legal = true) ∧
      (let q : Request := { write := true, addr := 0x01, size := 2, wdata := 1 }; q.write = true ∧ q.legal = false) ∧
      (let q : Request := { write := true, addr := 0x00, size := 0, wdata := 1 }; q.write = true ∧ q.legal = false) := by
  decide

theorem witness_WindowBytesAreLittleEndianLanes : (63 < 64 ∧ 3 < 4) ∧ (0 < 64 ∧ 0 < 4) ∧ 15 < 16 := by decide

theorem witness_OperandHalvesMayComeInEitherOrder : State.reset.rst = false := by decide

/-- A platform with the window at 0x1000. -/
def platform : Config.OpenParams :=
  { baseAddr := 0x1000, cmdLatency := 0, busProtocol := .apb, resetSampling := .synchronous }

theorem witness_WindowSitsAtBaseAddr : 0xFFF < platform.baseAddr ∧ platform.baseAddr + 0xFF < 0x1100 := by decide

theorem witness_DecodeMatchesExactlyTheTableWords :
    (0x0000_0000 : Word).toNat = 0 ∧ 0xB < (0x0000_000C : Word).toNat ∧ 0xB < (0x8000_0001 : Word).toNat := by decide

/-- The machine of the illegal-word statement's hypotheses, for any word. -/
theorem witness_IllegalCommandWordSetsStatusOnly_machine (w : Word) :
    (offered (Request.wr 0x00 w)).rst = false ∧
      (offered (Request.wr 0x00 w)).pending = .access (Request.wr 0x00 w) :: [] := ⟨rfl, rfl⟩

/-- One word for each part of R83's list. -/
theorem witness_IllegalCommandWordSetsStatusOnly_word :
    (0x0000_0010 : Word).toNat / 16 ≠ 0 ∧ (0x8000_0002 : Word).toNat / 16 ≠ 0 ∧ (0x0000_0000 : Word).toNat % 16 = 0 ∧
      0xC ≤ (0x0000_000C : Word).toNat % 16 ∧ 0xC ≤ (0x0000_000F : Word).toNat % 16 := by decide

theorem witness_StepRunsTheWrittenCommand :
    (offered (Request.wr 0x00 7)).rst = false ∧
      (offered (Request.wr 0x00 7)).pending = .access (Request.wr 0x00 7) :: [] ∧ decode 7 = .ok .diff := by decide

theorem witness_CommandWriteCompletesAndKeepsOperands :
    (offered (Request.wr 0x00 0xFFFF_FFFF)).rst = false ∧
      (offered (Request.wr 0x00 0xFFFF_FFFF)).pending = .access (Request.wr 0x00 0xFFFF_FFFF) :: [] := by decide

/-- "3dcccccd" with LEN = 8 (V-DEC-11). -/
def goodDec32 : State := withRegs { Regs.reset with hexIn := bufOf string3dcccccd, hexLen := 8 }

/-- "3dcccccg" with LEN = 8 (V-DEC-12). -/
def badDec32 : State := withRegs { Regs.reset with hexIn := bufOf string3dcccccg, hexLen := 8 }

/-- "3fF00000000000A1" with LEN = 16 (V-DEC-3). -/
def goodDec64 : State := withRegs { Regs.reset with hexIn := bufOf stringMixedCase, hexLen := 16 }

/-- "3ff000000000000g" with LEN = 255 (V-DEC-8). -/
def badDec64 : State := withRegs { Regs.reset with hexIn := bufOf stringBadLast, hexLen := 255 }

theorem witness_DecodeBinary32_success :
    goodDec32.regs.hexLen = 8 ∧ ∀ k, k < 8 → hexval (charAt goodDec32.regs.hexIn k) ≠ none := by decide

theorem witness_DecodeBinary32_failure :
    (State.reset.regs.hexLen ≠ 8) ∧ (∃ k, k < 8 ∧ hexval (charAt badDec32.regs.hexIn k) = none) ∧
      (7 < min badDec32.regs.hexLen.toNat 16 ∧ hexval (charAt badDec32.regs.hexIn 7) = none ∧
        ∀ j, j < 7 → hexval (charAt badDec32.regs.hexIn j) ≠ none) := by
  refine ⟨by decide, ⟨7, by decide⟩, by decide⟩

theorem witness_DecodeBinary64_success :
    goodDec64.regs.hexLen = 16 ∧ ∀ k, k < 16 → hexval (charAt goodDec64.regs.hexIn k) ≠ none := by decide

theorem witness_DecodeBinary64_failure :
    (badDec64.regs.hexLen ≠ 16) ∧ (∃ k, k < 16 ∧ hexval (charAt badDec64.regs.hexIn k) = none) ∧
      (15 < min badDec64.regs.hexLen.toNat 16 ∧ hexval (charAt badDec64.regs.hexIn 15) = none ∧
        ∀ j, j < 15 → hexval (charAt badDec64.regs.hexIn j) ≠ none) := by
  refine ⟨by decide, ⟨15, by decide⟩, by decide⟩

theorem witness_RoundTripBinary64 : State.reset.rst = false := by decide

theorem witness_RoundTripBinary32 : State.reset.rst = false := by decide

theorem witness_DecodeThenEncodeIsLowerCase :
    (∀ k, k < 16 → hexval (charAt (bufOf stringMixedCase) k) ≠ none) ∧
      (∀ k, k < 8 → hexval (charAt (bufOf stringMixedCase) k) ≠ none) ∧
      ∀ k, k < 8 → hexval (charAt (bufOf string3dcccccd) k) ≠ none := by decide

theorem witness_NoStepReportsRoundtripMismatch :
    let s := withRegs { Regs.reset with status := 5 }
    step s = .next s ∧ 5 ≤ statusCode s.regs.status := by
  refine ⟨rfl, by decide⟩

theorem witness_FieldStringsHaveFixedWidths : 63 < 64 ∧ 31 < 32 := by decide

theorem witness_DiffComparesFromTheLeft :
    (let s := withRegs { Regs.reset with la := 64, lb := 64 }; s.regs.la.toNat ≤ 64 ∧ s.regs.lb.toNat ≤ 64) ∧
      (let s := withRegs { Regs.reset with la := 65, lb := 4 }; 64 < s.regs.la.toNat) ∧
      (let s := withRegs { Regs.reset with la := 64, lb := 65 }; 64 < s.regs.lb.toNat) := by decide

theorem witness_DiffOfEqualLengthsIsMaskedXor :
    (let s := withRegs { Regs.reset with la := 64, lb := 64 }; s.regs.la = s.regs.lb ∧ s.regs.la.toNat ≤ 64) ∧
      (let s := withRegs { Regs.reset with la := 0, lb := 3 };
        s.regs.la.toNat ≤ 64 ∧ s.regs.lb.toNat ≤ 64 ∧ (s.regs.la = 0 ∨ s.regs.lb = 0)) := by decide

/-- The source's `diff("0011", "0010")`, loaded (V-DIFF-1). -/
theorem witness_DiffRendersTheSourceDiff :
    let s := withRegs { Regs.reset with opa := 3, opb := 2, la := 4, lb := 4 }
    let a : List Byte := [0x30, 0x30, 0x31, 0x31]
    let b : List Byte := [0x30, 0x30, 0x31, 0x30]
    a.length ≤ 64 ∧ b.length ≤ 64 ∧ renderBin (s.regs.opa.setWidth a.length) = a ∧
      renderBin (s.regs.opb.setWidth b.length) = b ∧ s.regs.la = BitVec.ofNat 7 a.length ∧
      s.regs.lb = BitVec.ofNat 7 b.length := by decide

theorem witness_CommandsThatCannotFail : Instr.cmp64 ∈ [Instr.enc32, .enc64, .ext32, .ext64, .cmp32, .cmp64] := by decide

theorem witness_CommandsWriteTheirWriteSets :
    Reg.resLo ∉ writeSet .dec64 false ∧ (∀ r ∈ writeSet .dec64 false, slotOf 0x4B ≠ r.offset) ∧
      (∀ r ∈ writeSet .dec64 true, slotOf 0x53 ≠ r.offset) := by decide

/-- Two machines that differ in everything but ENC32's operand. -/
theorem witness_CommandsReadOnlyTheirOperands :
    let s := withRegs { Regs.reset with opa := 0x1111_1111_3DCC_CCCD }
    let u := withRegs { Regs.reset with opa := 0x2222_2222_3DCC_CCCD, res := 5, status := 3, cmd := 0x17, hexOutLen := 8 }
    ∀ r ∈ readSet .enc32, readReg r s.regs = readReg r u.regs := by decide

theorem reset_inv : State.reset.Inv := by
  refine ⟨⟨⟨by decide, by decide, Or.inl ⟨by decide, ?_⟩⟩, ⟨by decide, by decide, by decide⟩, ⟨by decide, ?_⟩⟩, by decide⟩
  · unfold Regs.Unused; decide
  · intro j _; simp [State.reset, Regs.reset]

theorem witness_EveryStepKeepsTheInvariant : State.reset.Inv ∧ step State.reset = .next State.reset :=
  ⟨reset_inv, rfl⟩

theorem witness_ResetHoldsTheMachine : held.rst = true ∧ held.pending = [] := by decide

theorem witness_IdleMachineOnlyWaits : State.reset.rst = false ∧ State.reset.pending = [] := by decide

/-- A read, a write of OPA_LO, a misaligned write near CMD and a byte write at CMD. -/
theorem witness_OnlyCommandWritesChangeResults :
    ∀ q ∈ [Request.rd 0x00, Request.wr 0x08 1, ({ write := true, addr := 0x01, size := 2, wdata := 1 } : Request),
        { write := true, addr := 0x00, size := 0, wdata := 1 }],
      (offered q).rst = false ∧ (offered q).pending = .access q :: [] ∧
        Event.writes (Reg.offset .cmd) (.access q) = false := by decide

/-- OPA_LO is read back across an ENC64, a read and a byte write at OPA_LO that is refused; CMD across a write of OPA_HI. -/
theorem witness_ReadsSeeTheLastWrite :
    State.reset.rst = false ∧
      (Reg.accessKind .opaLo = .rw ∧ ∀ e ∈ [Event.access (Request.wr 0x00 2), .access (Request.rd 0x30),
          .access { write := true, addr := 0x08, size := 0, wdata := 1 }],
        e.isAccess = true ∧ e.writes (Reg.offset .opaLo) = false) ∧
      (Reg.accessKind .cmd = .rw ∧ ∀ e ∈ [Event.access (Request.wr 0x0C 2)],
        e.isAccess = true ∧ e.writes (Reg.offset .cmd) = false) := by decide

theorem witness_InterleavedReadsAreInvisible :
    Interleaving [.access (Request.wr 0x08 1), .access (Request.wr 0x00 2)] [.access (Request.rd 0x04)]
        [.access (Request.wr 0x08 1), .access (Request.rd 0x04), .access (Request.wr 0x00 2)] ∧
      (∀ e ∈ [Event.access (Request.rd 0x04)], e.passive = true) ∧
      Event.passive (.access { write := true, addr := 0x00, size := 0, wdata := 1 }) = true ∧
      (State.reset.rst = true → State.reset.regs = Regs.reset) ∧ (held.rst = true → held.regs = Regs.reset) :=
  ⟨.left (.right (.left .nil)), by decide, by decide, by decide, by decide⟩

theorem witness_EventsAreTakenInArrivalOrder :
    ∃ t, after [.access (Request.wr 0x08 1), .access (Request.wr 0x00 2)] State.reset = .next t := ⟨_, rfl⟩

theorem witness_HostPseudoInstructionsLoadOperands : State.reset.rst = false := by decide

theorem witness_FloatToHexThenHexToFloat : State.reset.rst = false := by decide

theorem witness_FloatToHexThenHexToFloat_error : statusCode 0x0000_0012 ≠ StatusCode.ok.bits := by decide

theorem witness_SlotsReadTheStatesFields : 0 < 4 ∧ 3 < 4 := by decide

theorem witness_ReadsAfterACommandSeeItsResults : State.reset.rst = false := by decide

theorem witness_HostReadLinesAnswer : State.reset.rst = false ∧ 3 < 4 := by decide

end Sys2Proof.Tests
end

section
/-! PROOFS of the statements of 10_state.md. First the layers the proofs share: the registers as the host reads them,
the fields of STATUS, what each command leaves in STATUS and what it leaves alone, and each access as one step; then the
invariant; then the statements. -/

namespace Sys2Proof.Machine

/-! ### Bits that a slot does not have (10_state.md R26) -/

/-- A narrow register is zero-extended: no bit of its slot above its width is set. -/
theorem setWidth_and_not_allOnes {w : Nat} (x : BitVec w) :
    x.setWidth 32 &&& ~~~((BitVec.allOnes w).setWidth 32) = 0 := by
  apply BitVec.eq_of_getLsbD_eq
  intro j hj
  by_cases h : j < w
  · simp [h, hj]
  · simp [BitVec.getLsbD_of_ge x j (by omega)]

/-- Bit j of what DLENS reads: LB at 14:8, LA at 6:0 (10_state.md R30). -/
theorem readReg_dlens_getLsbD (g : Regs) (j : Nat) :
    (readReg .dlens g).getLsbD j = if j < 8 then g.la.getLsbD j else g.lb.getLsbD (j - 8) := by
  by_cases h : j < 8
  · have h32 : j < 32 := by omega
    simp [readReg, h, h32]
  · have hla : g.la.getLsbD j = false := BitVec.getLsbD_of_ge _ _ (by omega)
    by_cases h32 : j < 32
    · simp [readReg, h, h32, hla]
    · have hlb : g.lb.getLsbD (j - 8) = false := BitVec.getLsbD_of_ge _ _ (by omega)
      simp [readReg, h, h32, hlb]

/-- The bits that DLENS does not have read 0 (10_state.md R26, R30). -/
theorem readReg_dlens_undefined (g : Regs) : readReg .dlens g &&& 0xFFFF_8080 = 0 := by
  apply BitVec.eq_of_getLsbD_eq
  intro j hj
  rw [BitVec.getLsbD_and, readReg_dlens_getLsbD]
  interval_cases j <;> simp

/-- The bits above a register's defined ones read 0, whatever the state (10_state.md R26). -/
theorem readReg_undefined_bits (r : Reg) (g : Regs) : readReg r g &&& ~~~r.definedMask = 0 := by
  cases r
  case status => simp [readReg, BitVec.and_assoc]
  case dlens => exact readReg_dlens_undefined g
  case hexLen => exact setWidth_and_not_allOnes g.hexLen
  case hexOutLen => exact setWidth_and_not_allOnes g.hexOutLen
  case fsign => exact setWidth_and_not_allOnes g.fsign
  case fexp => exact setWidth_and_not_allOnes g.fexp
  case fmantHi => exact setWidth_and_not_allOnes (g.fmant.extractLsb' 32 20)
  case dlen => exact setWidth_and_not_allOnes g.dlen
  all_goals exact BitVec.and_zero

/-- The two slots of FMANT put back together (10_state.md R34). -/
theorem fmantHi_append_fmantLo (g : Regs) :
    (readReg .fmantHi g).extractLsb' 0 20 ++ readReg .fmantLo g = g.fmant := by
  apply BitVec.eq_of_getLsbD_eq
  intro j hj
  rw [BitVec.getLsbD_append]
  by_cases h : j < 32
  · simp [readReg, h]
  · have h20 : j - 32 < 20 := by omega
    have h32 : j - 32 < 32 := by omega
    have hj' : 32 + (j - 32) = j := by omega
    simp [readReg, h, h20, h32, hj']

/-- DLENS.LA is bits 6:0 (10_state.md R30). -/
theorem readReg_dlens_la (g : Regs) : (readReg .dlens g).extractLsb' 0 7 = g.la := by
  apply BitVec.eq_of_getLsbD_eq
  intro j hj
  have h8 : j < 8 := by omega
  simp [readReg_dlens_getLsbD, hj, h8]

/-- DLENS.LB is bits 14:8 (10_state.md R30). -/
theorem readReg_dlens_lb (g : Regs) : (readReg .dlens g).extractLsb' 8 7 = g.lb := by
  apply BitVec.eq_of_getLsbD_eq
  intro j hj
  simp [readReg_dlens_getLsbD, hj]

/-- FMANT_HI has 20 bits (10_state.md R34). -/
theorem readReg_fmantHi_undefined (g : Regs) : (readReg .fmantHi g).extractLsb' 20 12 = 0 := by
  apply BitVec.eq_of_getLsbD_eq
  intro j hj
  simp [readReg]

/-- DLENS stores LA and LB and no other bit of the word written (10_state.md R26, R30). -/
theorem readReg_dlens_storeReg (v : Word) (g : Regs) : readReg .dlens (storeReg .dlens v g) = v &&& 0x0000_7F7F := by
  apply BitVec.eq_of_getLsbD_eq
  intro j hj
  rw [readReg_dlens_getLsbD, BitVec.getLsbD_and]
  interval_cases j <;> simp [storeReg]

/-- HEXLEN stores LEN and no other bit of the word written (10_state.md R26, R31). -/
theorem readReg_hexLen_storeReg (v : Word) (g : Regs) : readReg .hexLen (storeReg .hexLen v g) = v &&& 0x0000_00FF := by
  apply BitVec.eq_of_getLsbD_eq
  intro j hj
  rw [BitVec.getLsbD_and]
  interval_cases j <;> simp [readReg, storeReg]

/-! ### The fields of a STATUS word (10_state.md R28) -/

@[simp] theorem statusCode_statusWord (code : StatusCode) (l c : Bool) (f : BitVec 4) :
    statusCode (statusWord code l c f) = code.bits := by
  cases code <;> revert l c f <;> decide

@[simp] theorem statusLenBad_statusWord (code : StatusCode) (l c : Bool) (f : BitVec 4) :
    statusLenBad (statusWord code l c f) = l := by
  cases code <;> revert l c f <;> decide

@[simp] theorem statusCharBad_statusWord (code : StatusCode) (l c : Bool) (f : BitVec 4) :
    statusCharBad (statusWord code l c f) = c := by
  cases code <;> revert l c f <;> decide

@[simp] theorem statusFirstBad_statusWord (code : StatusCode) (l c : Bool) (f : BitVec 4) :
    statusFirstBad (statusWord code l c f) = f := by
  cases code <;> revert l c f <;> decide

/-- No outcome sets a reserved bit of STATUS. -/
theorem statusWord_reserved (code : StatusCode) (l c : Bool) (f : BitVec 4) :
    statusWord code l c f &&& ~~~Reg.definedMask .status = 0 := by
  cases code <;> revert l c f <;> decide

/-! ### Command words (30_encoding.md R82, R83) -/

@[simp] theorem decode_encode (i : Instr) : decode (encode i) = .ok i := by
  cases i <;> decide

/-- OP's value is the low four bits of the command's word. -/
theorem opcodeOf_eq_ok {op : BitVec 4} {i : Instr} (h : opcodeOf op = .ok i) :
    (encode i).toNat = op.toNat := by
  cases i <;> revert op <;> decide

/-- A word decodes to a command exactly when it is the command's word. -/
theorem decode_eq_ok {w : Word} {i : Instr} : decode w = .ok i ↔ w = encode i := by
  constructor
  · intro h
    unfold decode at h
    split at h
    case isTrue => exact absurd h (by simp)
    case isFalse hrsv =>
      have hop := opcodeOf_eq_ok h
      have hhi : (w.extractLsb' 4 28).toNat = 0 := by simpa using congrArg BitVec.toNat (not_not.mp hrsv)
      rw [BitVec.extractLsb'_toNat] at hop hhi
      apply BitVec.eq_of_toNat_eq
      rw [hop]
      omega
  · rintro rfl
    exact decode_encode i

/-- A word with a bit of 31:4 set is no command (30_encoding.md R83). -/
theorem decode_of_reserved_bits {w : Word} (h : w.extractLsb' 4 28 ≠ 0) : decode w = .error .reservedBits :=
  if_pos h

/-! ### A command's success, its STATUS and its results -/

/-- Decoding an encoded word gives it back (40_codec.md R111, R112). -/
theorem decValue_encBuf {w n : Nat} (hw : w = 4 * n) (hn : n ≤ 16) (r : BitVec w) :
    decValue w n (encBuf n r) = r := by
  apply BitVec.eq_of_getLsbD_eq
  intro j hj
  have hk : n - 1 - j / 4 < n := by omega
  have hdigit : 4 * (n - 1 - (n - 1 - j / 4)) + j % 4 = j := by omega
  rw [decValue_getLsbD w n _ j (by omega) hj, charAt_encBuf n r _ (by omega), if_pos hk, encChar_eq, hexval0_hexchar,
    BitVec.getLsbD_extractLsb', hdigit]
  simp [Nat.mod_lt]

/-- Every character of an encoded word is a hex digit (40_codec.md R102, R105). -/
theorem charsOk_encBuf {w n : Nat} (hn : n ≤ 16) (r : BitVec w) : charsOk n (encBuf n r) = true := by
  simp only [charsOk, List.all_eq_true, List.mem_range]
  intro k hk
  rw [charAt_encBuf n r k (by omega), if_pos hk, encChar_eq]
  exact hexval_hexchar_isSome _

/-- RTV's comparison never fails: it ends as ENC's string, RES and OK (40_codec.md R122). -/
theorem roundTrip_ok (g : Regs) {w n : Nat} (hw : w = 4 * n) (hn : n ≤ 16) (r : BitVec w) (len : BitVec 5) :
    g.roundTrip n r len = ((g.putHexOut (encBuf n r) len).putRes (r.setWidth 64)).complete := by
  simp [Regs.roundTrip, decValue_encBuf hw hn, charsOk_encBuf hn]

theorem rtv32_eq (g : Regs) : g.rtv32 = ((g.putHexOut (encBuf 8 g.opa32) 8).putRes (g.opa32.setWidth 64)).complete :=
  roundTrip_ok (n := Config.hex32Len) g rfl (by decide) g.opa32 8

theorem rtv64_eq (g : Regs) : g.rtv64 = ((g.putHexOut (encBuf 16 g.opa) 16).putRes (g.opa.setWidth 64)).complete :=
  roundTrip_ok (n := Config.hex64Len) g rfl (by decide) g.opa 16

/-- DIFF's own check (42_diff.md R160). -/
theorem diff_succeeds {g : Regs} : succeeds .diff g = true ↔ ¬(64 < g.la.toNat ∨ 64 < g.lb.toNat) := by
  simp [succeeds]

/-- A command whose check passes ends with CODE = OK and no cause (10_state.md R28). -/
theorem commandRegs_status_of_succeeds {i : Instr} {g : Regs} (h : succeeds i g = true) :
    (commandRegs i g).status = 0x0000_0001 := by
  cases i
  case enc32 | enc64 | ext32 | ext64 | cmp32 | cmp64 => rfl
  case dec32 | dec64 => exact congrArg Regs.status (decode_valid h _)
  case diff => exact congrArg Regs.status (diff_legal (diff_succeeds.mp h))
  case rtv32 => exact congrArg Regs.status (rtv32_eq g)
  case rtv64 => exact congrArg Regs.status (rtv64_eq g)

/-- Without a bad character FIRST_BAD is 0 (40_codec.md R106). -/
theorem checkHex_firstBad {n : Nat} {len : BitVec 8} {buf : Vector Byte 16} (h : (checkHex n len buf).charBad = false) :
    (checkHex n len buf).firstBad = 0 := by
  have hnone : firstBadIndex len buf = none := by simpa [checkHex] using h
  simp [checkHex, hnone]

/-- A failed check of DEC has one of the two causes (40_codec.md R106). -/
theorem checkHex_invalid {n : Nat} {len : BitVec 8} {buf : Vector Byte 16} (h : (checkHex n len buf).valid = false) :
    (checkHex n len buf).lenBad = true ∨ (checkHex n len buf).charBad = true := by
  rw [HexCheck.valid, Bool.and_eq_false_iff] at h
  simpa using h

/-- All that a command whose check fails can do: DIFF reports ILLEGAL_OPERAND and DEC INVALID_ENCODING with its causes,
and nothing but STATUS changes (60_exceptions.md R190, R191). -/
theorem commandRegs_of_fails {i : Instr} {g : Regs} (h : succeeds i g = false) :
    (i = .diff ∧ commandRegs i g = { g with status := 0x0000_0014 }) ∨
    ((i = .dec32 ∨ i = .dec64) ∧ ∃ c : HexCheck, (c.lenBad = true ∨ c.charBad = true) ∧
      (c.charBad = false → c.firstBad = 0) ∧
      commandRegs i g = { g with status := statusWord .invalidEncoding c.lenBad c.charBad c.firstBad }) := by
  cases i
  case enc32 | enc64 | ext32 | ext64 | cmp32 | cmp64 | rtv32 | rtv64 => simp [succeeds] at h
  case dec32 => exact .inr ⟨.inl rfl, _, checkHex_invalid h, checkHex_firstBad, decode_invalid h _⟩
  case dec64 => exact .inr ⟨.inr rfl, _, checkHex_invalid h, checkHex_firstBad, decode_invalid h _⟩
  case diff =>
    have hlen : 64 < g.la.toNat ∨ 64 < g.lb.toNat := by
      by_contra hc
      simp [diff_succeeds.mpr hc] at h
    exact .inl ⟨rfl, diff_illegal hlen⟩

/-! ### What the shared writes leave alone, as the host reads it (10_state.md R40) -/

theorem readReg_putHexOut {r : Reg} (h : r ∉ [Reg.hexOut0, .hexOut1, .hexOut2, .hexOut3, .hexOutLen]) (g : Regs)
    (buf : Vector Byte 16) (len : BitVec 5) : readReg r (g.putHexOut buf len) = readReg r g := by
  cases r
  case hexOut0 | hexOut1 | hexOut2 | hexOut3 | hexOutLen => simp at h
  all_goals rfl

theorem readReg_putRes {r : Reg} (h : r ∉ [Reg.resLo, .resHi]) (g : Regs) (v : DWord) :
    readReg r (g.putRes v) = readReg r g := by
  cases r
  case resLo | resHi => simp at h
  all_goals rfl

theorem readReg_putFields {r : Reg} (h : r ∉ [Reg.fsign, .fexp, .fmantLo, .fmantHi]) (g : Regs) (a : BitVec 1)
    (b : BitVec 11) (c : BitVec 52) : readReg r (g.putFields a b c) = readReg r g := by
  cases r
  case fsign | fexp | fmantLo | fmantHi => simp at h
  all_goals rfl

theorem readReg_putDiff {r : Reg} (h : r ∉ [Reg.dmaskLo, .dmaskHi, .dlen]) (g : Regs) (m : DWord) (n : BitVec 7) :
    readReg r (g.putDiff m n) = readReg r g := by
  cases r
  case dmaskLo | dmaskHi | dlen => simp at h
  all_goals rfl

theorem readReg_withStatus {r : Reg} (h : r ≠ .status) (g : Regs) (st : Word) :
    readReg r { g with status := st } = readReg r g := by
  cases r
  case status => simp at h
  all_goals rfl

theorem readReg_complete {r : Reg} (h : r ≠ .status) (g : Regs) : readReg r g.complete = readReg r g :=
  readReg_withStatus h g _

/-- A command changes no register outside its write set (10_state.md R40). -/
theorem readReg_commandRegs {i : Instr} {g : Regs} {r : Reg} (h : r ∉ writeSet i (succeeds i g)) :
    readReg r (commandRegs i g) = readReg r g := by
  cases hs : succeeds i g with
  | false =>
    have hst : r ≠ .status := by
      rintro rfl
      rw [hs] at h
      cases i <;> exact h (by decide)
    obtain ⟨-, heq⟩ | ⟨-, c, -, -, heq⟩ := commandRegs_of_fails hs <;> rw [heq] <;> exact readReg_withStatus hst g _
  | true =>
    rw [hs] at h
    cases i <;> simp only [writeSet, if_true, List.mem_cons, List.not_mem_nil, or_false, not_or] at h
    case enc32 | enc64 =>
      simp only [commandRegs, Regs.enc32, Regs.enc64]
      rw [readReg_complete (by simp [h]), readReg_putHexOut (by simp [h])]
    case ext32 | ext64 =>
      simp only [commandRegs, Regs.ext32, Regs.ext64]
      rw [readReg_complete (by simp [h]), readReg_putFields (by simp [h])]
    case cmp32 | cmp64 =>
      simp only [commandRegs, Regs.cmp32, Regs.cmp64]
      rw [readReg_complete (by simp [h]), readReg_putDiff (by simp [h])]
    case rtv32 | rtv64 =>
      simp only [commandRegs, rtv32_eq, rtv64_eq]
      rw [readReg_complete (by simp [h]), readReg_putRes (by simp [h]), readReg_putHexOut (by simp [h])]
    case dec32 | dec64 =>
      simp only [succeeds] at hs
      simp only [commandRegs, Regs.dec32, Regs.dec64, Regs.decode, hs, if_true]
      rw [readReg_complete (by simp [h]), readReg_putRes (by simp [h])]
    case diff =>
      simp only [commandRegs, Regs.diff, Config.diffMaxLen, if_neg (diff_succeeds.mp hs)]
      rw [readReg_complete (by simp [h]), readReg_putDiff (by simp [h])]

/-- A window byte reads alike when the register of its slot, if it has one, does (20_memory.md R51). -/
theorem windowByte_congr {off : Offset} {g g' : Regs}
    (h : ∀ r : Reg, slotOf off = r.offset → readReg r g' = readReg r g) : windowByte off g' = windowByte off g := by
  have hslot : readSlot (slotOf off) g' = readSlot (slotOf off) g := by
    cases ho : Reg.ofOffset (slotOf off) with
    | none => simp only [readSlot, ho]
    | some r => simp only [readSlot, ho]; exact h r (ofOffset_eq_some.mp ho)
  rw [windowByte, windowByte, hslot]

/-! ### Accesses and steps -/

theorem wordRegs_of_command {w : Word} {i : Instr} (h : decode w = .ok i) (g : Regs) :
    wordRegs w g = commandRegs i { g with cmd := w } := by
  simp only [wordRegs, h]

theorem wordRegs_of_illegal {w : Word} {e : DecodeError} (h : decode w = .error e) (g : Regs) :
    wordRegs w g = { g with cmd := w, status := 0x0000_0003 } := by
  simp only [wordRegs, h]

/-- A word written to CMD stays there, and no operand register changes (10_state.md R27, R29, R40). -/
theorem wordRegs_keeps (w : Word) (g : Regs) :
    (wordRegs w g).cmd = w ∧ (wordRegs w g).opa = g.opa ∧ (wordRegs w g).opb = g.opb ∧ (wordRegs w g).la = g.la ∧
      (wordRegs w g).lb = g.lb ∧ (wordRegs w g).hexLen = g.hexLen ∧ (wordRegs w g).hexIn = g.hexIn := by
  cases h : decode w with
  | ok i => rw [wordRegs_of_command h]; exact commandRegs_keeps i { g with cmd := w }
  | error e => rw [wordRegs_of_illegal h]; exact ⟨rfl, rfl, rfl, rfl, rfl, rfl, rfl⟩

/-- A command leaves CODE at OK, INVALID_ENCODING or ILLEGAL_OPERAND (10_state.md R28, 40_codec.md R122). -/
theorem commandRegs_statusCode (i : Instr) (g : Regs) :
    statusCode (commandRegs i g).status =
      if succeeds i g then StatusCode.ok.bits
      else if i = .diff then StatusCode.illegalOperand.bits else StatusCode.invalidEncoding.bits := by
  cases hs : succeeds i g with
  | true => rw [commandRegs_status_of_succeeds hs]; rfl
  | false =>
    obtain ⟨rfl, heq⟩ | ⟨hi, c, -, -, heq⟩ := commandRegs_of_fails hs
    · rw [heq]; simp [statusCode, StatusCode.bits]
    · have hne : i ≠ .diff := by rintro rfl; simp at hi
      rw [heq]
      simp [hne]

/-- A word written to CMD leaves CODE at one of 1–4 (10_state.md R28). -/
theorem wordRegs_statusCode (w : Word) (g : Regs) :
    1 ≤ statusCode (wordRegs w g).status ∧ statusCode (wordRegs w g).status ≤ 4 := by
  cases h : decode w with
  | ok i =>
    rw [wordRegs_of_command h, commandRegs_statusCode]
    split
    · decide
    · split <;> decide
  | error e =>
    rw [wordRegs_of_illegal h]
    exact (by decide : 1 ≤ statusCode 0x0000_0003 ∧ statusCode 0x0000_0003 ≤ 4)

/-- A CMD write is one access: the word's registers, and the write done (10_state.md R27). -/
theorem access_wr_cmd_eq (w : Word) (s : State) :
    access (Request.wr (Reg.offset .cmd) w) s = .next ((s.setRegs (wordRegs w s.regs)).respond .done) := by
  rw [access_wr_cmd, execute_eq]
  rfl

/-- A write to an RO register completes and changes nothing (10_state.md R26). -/
theorem access_wr_ro {r : Reg} (h : r.accessKind = .ro) (v : Word) (s : State) :
    access (Request.wr r.offset v) s = .next (s.respond .done) := by
  have hr : r ≠ .cmd := by rintro rfl; simp [Reg.accessKind] at h
  rw [access_wr_other hr, storeReg_ro h, setRegs_self]

/-- Outside reset a step takes the access at the head of what is to arrive (20_memory.md R61). -/
theorem step_access {s : State} {q : Request} {rest : List Event} (hr : s.rst = false)
    (hp : s.pending = .access q :: rest) : step s = access q { s with pending := rest } := by
  rw [step_cons hp]
  simp [handle, hr]

/-- A step that writes a command's word to CMD is that command at the machine with the word stored (10_state.md R27). -/
theorem step_wr_cmd {s : State} {w : Word} {i : Instr} {rest : List Event} (hr : s.rst = false)
    (hp : s.pending = .access (Request.wr (Reg.offset .cmd) w) :: rest) (hd : decode w = .ok i) :
    step s = completeWrite (exec i { s with pending := rest, regs := { s.regs with cmd := w } }) := by
  rw [step_access hr hp, access_wr_cmd, execute_ok hd]
  rfl

/-- A command's word is 32 bits wide, so the table's number for it is the word (30_encoding.md R81). -/
theorem tableWord_toNat (w : Word) : tableWord 32 w.toNat = w := by
  rw [tableWord, Nat.mod_eq_of_lt w.isLt, BitVec.ofNat_toNat, BitVec.setWidth_eq]

/-- A write outside CMD changes operand registers only (10_state.md R24, R26, 20_memory.md R57). -/
theorem storeSlot_cases {off : Offset} (h : off ≠ Reg.offset .cmd) (v : Word) (g : Regs) :
    ∃ opa opb la lb hexLen hexIn, storeSlot off v g =
      { g with opa := opa, opb := opb, la := la, lb := lb, hexLen := hexLen, hexIn := hexIn } := by
  cases ho : Reg.ofOffset off with
  | none => exact ⟨g.opa, g.opb, g.la, g.lb, g.hexLen, g.hexIn, by simp only [storeSlot, ho]⟩
  | some r =>
    rw [ofOffset_eq_some] at ho
    subst ho
    rw [storeSlot_offset]
    cases r
    case cmd => exact absurd rfl h
    all_goals exact ⟨_, _, _, _, _, _, rfl⟩

/-- Operand registers apart, two states read alike at CMD, STATUS and every result register (10_state.md R24). -/
theorem readReg_withOperands {r : Reg} (h : r ∈ resultRegs) (g : Regs) (opa opb : DWord) (la lb : BitVec 7)
    (hexLen : BitVec 8) (hexIn : Vector Byte 16) :
    readReg r { g with opa := opa, opb := opb, la := la, lb := lb, hexLen := hexLen, hexIn := hexIn } =
      readReg r g := by
  cases r
  case opaLo | opaHi | opbLo | opbHi | dlens | hexLen | hexIn0 | hexIn1 | hexIn2 | hexIn3 => simp [resultRegs] at h
  all_goals rfl

/-- An access that is no legal write to CMD keeps CMD, STATUS and the results: it reads, is refused, or stores in an
operand register (20_memory.md R55–R57). -/
theorem readReg_accessRegs_of_not_writes_cmd {q : Request} (hq : Event.writes (Reg.offset .cmd) (.access q) = false)
    {r : Reg} (hr : r ∈ resultRegs) (g : Regs) : readReg r (accessRegs q g) = readReg r g := by
  cases hw : q.legal && q.write with
  | false => simp only [accessRegs, hw, Bool.false_eq_true, if_false]
  | true =>
    have hcmd : q.addr ≠ Reg.offset .cmd := by simpa [Event.writes, hw] using hq
    obtain ⟨opa, opb, la, lb, len, buf, heq⟩ := storeSlot_cases hcmd q.wdata g
    simp only [accessRegs, hw, if_true, if_neg hcmd, heq]
    exact readReg_withOperands hr g opa opb la lb len buf

/-! ### The invariant of HEXOUT and HEXOUT_LEN (10_state.md R32) -/

/-- The invariant speaks of HEXOUT and HEXOUT_LEN alone. -/
theorem hexOutInv_congr {g g' : Regs} (h : g.HexOutInv) (hbuf : g'.hexOut = g.hexOut)
    (hlen : g'.hexOutLen = g.hexOutLen) : g'.HexOutInv := by
  rw [Regs.HexOutInv, hbuf, hlen]
  exact h

/-- An encoded word is lowercase digits with zeros behind them (40_codec.md R101–R104). -/
theorem hexOutInv_of_encBuf {g : Regs} {w n : Nat} {r : BitVec w} (hn : n = 8 ∨ n = 16) (hbuf : g.hexOut = encBuf n r)
    (hlen : g.hexOutLen = BitVec.ofNat 5 n) : g.HexOutInv := by
  have hnat : g.hexOutLen.toNat = n := by rw [hlen, BitVec.toNat_ofNat]; omega
  rw [Regs.HexOutInv, hbuf, hnat]
  refine ⟨.inr ?_, fun k hk hle => ?_, fun k hk => ⟨r.extractLsb' (4 * (n - 1 - k)) 4, ?_⟩⟩
  · rw [hlen]
    exact hn.imp (congrArg (BitVec.ofNat 5)) (congrArg (BitVec.ofNat 5))
  · exact (charAt_encBuf n r k hk).trans (if_neg (Nat.not_lt.mpr hle))
  · exact (charAt_encBuf n r k (by omega)).trans (if_pos hk)

/-- Only ENC and RTV write HEXOUT and HEXOUT_LEN (10_state.md R40). -/
theorem commandRegs_keeps_hexOut {i : Instr} (h : i ∉ [Instr.enc32, .enc64, .rtv32, .rtv64]) (g : Regs) :
    (commandRegs i g).hexOut = g.hexOut ∧ (commandRegs i g).hexOutLen = g.hexOutLen := by
  cases i
  case enc32 | enc64 | rtv32 | rtv64 => simp at h
  case ext32 | ext64 | cmp32 | cmp64 =>
    simp only [commandRegs, Regs.ext32, Regs.ext64, Regs.cmp32, Regs.cmp64, putFields_eq, putDiff_eq, complete_eq,
      and_self]
  case dec32 | dec64 =>
    simp only [commandRegs, Regs.dec32, Regs.dec64, Regs.decode]
    split <;> simp only [raiseStatus_eq, putRes_eq, complete_eq, and_self]
  case diff =>
    simp only [commandRegs, Regs.diff]
    split <;> simp only [raiseStatus_eq, putDiff_eq, complete_eq, and_self]

/-- ENC and RTV leave an encoded word in HEXOUT; the other commands keep it. -/
theorem hexOutInv_commandRegs (i : Instr) {g : Regs} (h : g.HexOutInv) : (commandRegs i g).HexOutInv := by
  by_cases hi : i ∈ [Instr.enc32, .enc64, .rtv32, .rtv64]
  case neg =>
    obtain ⟨hbuf, hlen⟩ := commandRegs_keeps_hexOut hi g
    exact hexOutInv_congr h hbuf hlen
  case pos =>
    simp only [List.mem_cons, List.not_mem_nil, or_false] at hi
    rcases hi with rfl | rfl | rfl | rfl
    · exact hexOutInv_of_encBuf (.inl rfl) rfl rfl
    · exact hexOutInv_of_encBuf (.inr rfl) rfl rfl
    · rw [commandRegs, rtv32_eq]
      exact hexOutInv_of_encBuf (.inl rfl) rfl rfl
    · rw [commandRegs, rtv64_eq]
      exact hexOutInv_of_encBuf (.inr rfl) rfl rfl

/-! ### The invariant of DMASK and DLEN (10_state.md R35) -/

/-- The invariant speaks of DMASK and DLEN alone. -/
theorem diffInv_congr {g g' : Regs} (h : g.DiffInv) (hmask : g'.dmask = g.dmask) (hlen : g'.dlen = g.dlen) :
    g'.DiffInv := by
  rw [Regs.DiffInv, hmask, hlen]
  exact h

/-- DIFF's mask has no bit from min(LA, LB) on (42_diff.md R160). -/
theorem diffInv_of_diffMask {g : Regs} {a b : DWord} {la lb n : Nat} (hn : n ≤ 64)
    (hmask : g.dmask = diffMask a b la lb n) (hlen : g.dlen = BitVec.ofNat 7 n) : g.DiffInv := by
  have hnat : g.dlen.toNat = n := by rw [hlen, BitVec.toNat_ofNat]; omega
  refine ⟨hnat.trans_le hn, fun j hj => ?_⟩
  have hge : ¬ j < n := by omega
  rw [hmask, diffMask_getLsbD a b la lb n j hn, decide_eq_false hge, Bool.false_and]

/-- Only DIFF and CMP write DMASK and DLEN (10_state.md R40). -/
theorem commandRegs_keeps_diff {i : Instr} (h : i ∉ [Instr.diff, .cmp32, .cmp64]) (g : Regs) :
    (commandRegs i g).dmask = g.dmask ∧ (commandRegs i g).dlen = g.dlen := by
  cases i
  case diff | cmp32 | cmp64 => simp at h
  case enc32 | enc64 | ext32 | ext64 =>
    simp only [commandRegs, Regs.enc32, Regs.enc64, Regs.ext32, Regs.ext64, putHexOut_eq, putFields_eq, complete_eq,
      and_self]
  case dec32 | dec64 =>
    simp only [commandRegs, Regs.dec32, Regs.dec64, Regs.decode]
    split <;> simp only [raiseStatus_eq, putRes_eq, complete_eq, and_self]
  case rtv32 | rtv64 => simp only [commandRegs, Regs.rtv32, Regs.rtv64, roundTrip_eq, and_self]

/-- DIFF and CMP clear DMASK from DLEN on; the other commands keep both. -/
theorem diffInv_commandRegs (i : Instr) {g : Regs} (h : g.DiffInv) : (commandRegs i g).DiffInv := by
  by_cases hi : i ∈ [Instr.diff, .cmp32, .cmp64]
  case neg =>
    obtain ⟨hmask, hlen⟩ := commandRegs_keeps_diff hi g
    exact diffInv_congr h hmask hlen
  case pos =>
    simp only [List.mem_cons, List.not_mem_nil, or_false] at hi
    rcases hi with rfl | rfl | rfl <;> rw [commandRegs]
    · by_cases hlen : 64 < g.la.toNat ∨ 64 < g.lb.toNat
      · rw [diff_illegal hlen]
        exact diffInv_congr h rfl rfl
      · rw [diff_legal hlen]
        exact diffInv_of_diffMask (by omega) rfl rfl
    · rw [cmp32_eq]
      refine ⟨(by decide : (32 : BitVec 7).toNat ≤ 64), fun j (hj : 32 ≤ j) => ?_⟩
      simp [BitVec.getLsbD_of_ge _ j hj]
    · rw [cmp64_eq]
      exact ⟨(by decide : (64 : BitVec 7).toNat ≤ 64), fun j (hj : 64 ≤ j) => BitVec.getLsbD_of_ge _ j hj⟩

/-! ### The invariant of STATUS (10_state.md R28) -/

theorem illegalWord_encode (i : Instr) : illegalWord (encode i) = false := by
  simp only [illegalWord, decode_encode]

/-- After a command STATUS describes it, whatever STATUS was before (60_exceptions.md R191). -/
theorem statusInv_commandRegs {i : Instr} {g : Regs} (hcmd : g.cmd = encode i) : (commandRegs i g).StatusInv := by
  obtain ⟨hkeep, -⟩ := commandRegs_keeps i g
  rw [hcmd] at hkeep
  cases hs : succeeds i g with
  | true =>
    have hst := commandRegs_status_of_succeeds hs
    refine ⟨by rw [hst]; decide, fun _ => by rw [hst]; decide, .inr (.inl ⟨hst, ?_⟩)⟩
    rw [hkeep]
    exact illegalWord_encode i
  | false =>
    obtain ⟨rfl, heq⟩ | ⟨hi, c, hcause, hfirst, heq⟩ := commandRegs_of_fails hs
    · rw [heq]
      exact ⟨(by decide : 0x0000_0014 &&& ~~~Reg.definedMask .status = 0),
        fun _ => (by decide : statusFirstBad 0x0000_0014 = 0), .inr (.inr (.inr (.inr ⟨rfl, hcmd⟩)))⟩
    · rw [heq]
      refine ⟨statusWord_reserved _ _ _ _, ?_, .inr (.inr (.inl ⟨?_, ?_, ?_⟩))⟩
      · simpa using hfirst
      · exact statusCode_statusWord _ _ _ _
      · simpa using hcause
      · rcases hi with rfl | rfl
        · exact .inl hcmd
        · exact .inr hcmd

/-! ### The invariant of the machine -/

theorem commandRegs_inv {i : Instr} {g : Regs} (hcmd : g.cmd = encode i) (hhex : g.HexOutInv) (hdiff : g.DiffInv) :
    (commandRegs i g).Inv :=
  ⟨statusInv_commandRegs hcmd, hexOutInv_commandRegs i hhex, diffInv_commandRegs i hdiff⟩

theorem wordRegs_inv (w : Word) {g : Regs} (h : g.Inv) : (wordRegs w g).Inv := by
  obtain ⟨-, hhex, hdiff⟩ := h
  cases hd : decode w with
  | ok i =>
    rw [wordRegs_of_command hd]
    exact commandRegs_inv (decode_eq_ok.mp hd) hhex hdiff
  | error e =>
    have hill : illegalWord w = true := by simp only [illegalWord, hd]
    rw [wordRegs_of_illegal hd]
    exact ⟨⟨(by decide : 0x0000_0003 &&& ~~~Reg.definedMask .status = 0),
      fun _ => (by decide : statusFirstBad 0x0000_0003 = 0), .inr (.inr (.inr (.inl ⟨rfl, hill⟩)))⟩, hhex, hdiff⟩

theorem accessRegs_inv (q : Request) {g : Regs} (h : g.Inv) : (accessRegs q g).Inv := by
  unfold accessRegs
  split
  · split
    case isTrue => exact wordRegs_inv q.wdata h
    case isFalse hcmd =>
      obtain ⟨opa, opb, la, lb, len, buf, heq⟩ := storeSlot_cases hcmd q.wdata g
      rw [heq]
      exact h
  · exact h

/-- The reset values meet the invariant: no command has run (70_reset_and_hazards.md R220, R223). -/
theorem regs_reset_inv : Regs.reset.Inv := by
  have hunused : Regs.reset.Unused := ⟨rfl, rfl, rfl, rfl, rfl, rfl, rfl, rfl, rfl, rfl⟩
  have hchars : ∀ k, k < 16 → charAt Regs.reset.hexOut k = 0 := by decide
  exact ⟨⟨by decide, fun _ => by decide, .inl ⟨by decide, hunused⟩⟩,
    ⟨.inl rfl, fun k hk _ => hchars k hk, fun k hk => absurd hk (Nat.not_lt_zero k)⟩,
    ⟨by decide, fun j _ => BitVec.getLsbD_zero⟩⟩

/-- A machine at its reset values meets the invariant at either level of rst. -/
theorem inv_of_regs_reset {s : State} (h : s.regs = Regs.reset) : s.Inv :=
  ⟨h ▸ regs_reset_inv, fun _ => h⟩

/-- Outside reset the registers' invariant is all there is to meet. -/
theorem inv_of_rst_false {s : State} (h : s.regs.Inv) (hr : s.rst = false) : s.Inv :=
  ⟨h, fun ht => absurd (hr.symm.trans ht) (by decide)⟩

theorem handled_inv (e : Event) {s : State} (h : s.Inv) : (handled e s).Inv := by
  obtain ⟨hregs, hreset⟩ := h
  cases hr : s.rst with
  | true =>
    cases e <;> simp only [handled, hr, if_true] <;> exact inv_of_regs_reset rfl
  | false =>
    cases e <;> simp only [handled, hr, Bool.false_eq_true, if_false]
    case access q => exact inv_of_rst_false (accessRegs_inv q hregs) hr
    case rstRise => exact inv_of_regs_reset rfl
    case rstFall => exact inv_of_rst_false hregs rfl

theorem idle_inv {s t : State} (h : s.Inv) (hi : idle s = .next t) : t.Inv := by
  cases hr : s.rst <;> simp only [idle, hr, if_true, Bool.false_eq_true, if_false] at hi <;> cases hi
  · exact h
  · exact inv_of_regs_reset rfl

/-! ### The statements of 10_state.md -/

/-- Settles O47: an event's registers are the reset values or come from `accessRegs`, which keeps the invariant. -/
theorem everyStepKeepsTheInvariant : Obligations.EveryStepKeepsTheInvariant := by
  unfold Obligations.EveryStepKeepsTheInvariant
  intro s t h hstep
  cases hp : s.pending with
  | nil =>
    rw [step_nil hp] at hstep
    exact idle_inv h hstep
  | cons e rest =>
    rw [step_cons hp, handle_eq] at hstep
    cases hstep
    exact handled_inv e h

/-- Settles O4: RO stores nothing, the undefined bits of every slot read 0, and CMD keeps the word it is given. -/
theorem readOnlyRegistersAndReservedBits : Obligations.ReadOnlyRegistersAndReservedBits := by
  unfold Obligations.ReadOnlyRegistersAndReservedBits
  refine ⟨fun r hr v s => ?_, fun v g => ⟨?_, ?_⟩, fun g => ?_, fun w s => ?_⟩
  · have hro : r.accessKind = .ro := by revert r; decide
    exact access_wr_ro hro v s
  · exact readReg_dlens_storeReg v g
  · exact readReg_hexLen_storeReg v g
  · exact ⟨readReg_undefined_bits .hexOutLen g, readReg_undefined_bits .fsign g, readReg_undefined_bits .fexp g,
      readReg_undefined_bits .fmantHi g, readReg_undefined_bits .dlen g, readReg_undefined_bits .status g,
      readReg_undefined_bits .dlens g, readReg_undefined_bits .hexLen g⟩
  · obtain ⟨hcmd, -⟩ := wordRegs_keeps w s.regs
    refine ⟨_, access_wr_cmd_eq w s, hcmd, fun hw => ?_⟩
    exact congrArg Regs.status (wordRegs_of_illegal (decode_of_reserved_bits hw) s.regs)

/-- Settles O17: the step is `wordRegs`, which leaves CODE at 1–4 and the operand registers alone. -/
theorem commandWriteCompletesAndKeepsOperands : Obligations.CommandWriteCompletesAndKeepsOperands := by
  unfold Obligations.CommandWriteCompletesAndKeepsOperands
  intro s w rest hr hp
  obtain ⟨hcmd, hkeeps⟩ := wordRegs_keeps w s.regs
  obtain ⟨hlo, hhi⟩ := wordRegs_statusCode w s.regs
  exact ⟨_, (step_access hr hp).trans (access_wr_cmd_eq w _), rfl, rfl, hr, hcmd, hlo, hhi, hkeeps⟩

/-- Settles O44: by the command's write set, on success and on failure. -/
theorem commandsWriteTheirWriteSets : Obligations.CommandsWriteTheirWriteSets := by
  unfold Obligations.CommandsWriteTheirWriteSets
  intro i s
  refine ⟨_, exec_eq i s, ?_, fun r hr => readReg_commandRegs hr, fun off hoff => ?_, rfl, rfl, rfl⟩
  · rw [setRegs_regs, commandRegs_statusCode]
    cases succeeds i s.regs with
    | true => simp
    | false => simp only [Bool.false_eq_true, if_false, false_iff]; split <;> decide
  · exact windowByte_congr fun r hr => readReg_commandRegs fun hmem => hoff r hmem hr

/-- Settles O51: such an access reads, is refused, or stores in an operand register. -/
theorem onlyCommandWritesChangeResults : Obligations.OnlyCommandWritesChangeResults := by
  unfold Obligations.OnlyCommandWritesChangeResults
  intro s q rest hr hp hw
  refine ⟨_, (step_access hr hp).trans (access_eq q _), fun r hmem => ?_, hr, rfl⟩
  exact readReg_accessRegs_of_not_writes_cmd hw hmem s.regs

/-- Settles O57: slot by slot; a buffer word's bytes are its four characters. -/
theorem slotsReadTheStatesFields : Obligations.SlotsReadTheStatesFields := by
  unfold Obligations.SlotsReadTheStatesFields
  intro g
  refine ⟨rfl, rfl, hiHalf_append_loHalf _, hiHalf_append_loHalf _, readReg_dlens_la g, readReg_dlens_lb g,
    readReg_dlens_undefined g, rfl, rfl, hiHalf_append_loHalf _, rfl, rfl, fmantHi_append_fmantLo g,
    readReg_fmantHi_undefined g, hiHalf_append_loHalf _, rfl, fun j hj => ?_⟩
  have hbyte := fun buf i => bufWord_byte buf i j hj
  have hzero : 4 * 0 + j = j := by omega
  exact ⟨(hbyte g.hexIn 0).trans (congrArg _ hzero), hbyte g.hexIn 1, hbyte g.hexIn 2, hbyte g.hexIn 3,
    (hbyte g.hexOut 0).trans (congrArg _ hzero), hbyte g.hexOut 1, hbyte g.hexOut 2, hbyte g.hexOut 3⟩

/-- Settles O2: R24's column by evaluation, the rest by what `Reg.ofOffset` finds. -/
theorem registerMapIsOneToOne : Obligations.RegisterMapIsOneToOne := by
  unfold Obligations.RegisterMapIsOneToOne
  exact ⟨by decide, ofOffset_offset, fun _ _ => ofOffset_eq_some.mp, ofOffset_eq_none⟩

/-- Settles O3: no register is found at such an offset, so a read gives 0 and a write stores nothing. -/
theorem reservedSlotsReadZeroAndIgnoreWrites : Obligations.ReservedSlotsReadZeroAndIgnoreWrites := by
  unfold Obligations.ReservedSlotsReadZeroAndIgnoreWrites
  intro s off v halign hres
  have hnone : Reg.ofOffset off = none := (ofOffset_eq_none off halign).mpr hres
  have hcmd : off ≠ Reg.offset .cmd := by rintro rfl; simp at hnone
  constructor
  · rw [access_read ((legal_iff _).mpr ⟨halign, rfl⟩) rfl, rd_addr, readSlot, hnone]
  · rw [access_write ((legal_iff _).mpr ⟨halign, rfl⟩) rfl, wr_addr, wr_wdata, hostWrite_other hcmd, storeSlot, hnone]
    rfl

/-- Settles O16: `withFetchWord` is one case of a CMD write at the head of what is to arrive. -/
theorem stepRunsTheWrittenCommand : Obligations.StepRunsTheWrittenCommand := by
  unfold Obligations.StepRunsTheWrittenCommand
  refine ⟨fun s w i rest hr hp hd => step_wr_cmd hr hp hd, fun s i => ?_⟩
  rw [State.withFetchWord, tableWord_toNat]
  exact step_wr_cmd rfl rfl (decode_encode i)

end Sys2Proof.Machine
end

section
/-! PROOFS of the statements of 20_memory.md. First the layers: what a stored register reads as and what the store
leaves alone; what a second write does; which operands a command depends on; the byte lanes of the window; and an access
outside reset as a step of a run. Then the statements. -/

namespace Sys2Proof.Machine

/-! ### What a store changes and what it leaves alone (20_memory.md R57, 10_state.md R26) -/

/-- An RW register reads back the defined bits of what was stored in it. -/
theorem readReg_storeReg_same {r : Reg} (h : r.accessKind = .rw) (v : Word) (g : Regs) :
    readReg r (storeReg r v g) = v &&& r.definedMask := by
  have hall : v &&& 0xFFFF_FFFF = v := BitVec.and_allOnes
  cases r
  case dlens => exact readReg_dlens_storeReg v g
  case hexLen => exact readReg_hexLen_storeReg v g
  case cmd => exact hall.symm
  case opaLo | opbLo => exact (loHalf_withLo _ v).trans hall.symm
  case opaHi | opbHi => exact (hiHalf_withHi _ v).trans hall.symm
  case hexIn0 | hexIn1 | hexIn2 | hexIn3 =>
    exact ((bufWord_setBufWord _ _ _ v (by decide)).trans (if_pos rfl)).trans hall.symm
  all_goals cases h

/-- A stored word of HEXIN leaves the other three words alone (10_state.md R31). -/
theorem bufWord_setBufWord_ne (buf : Vector Byte 16) {i m : Nat} (v : Word) (hm : m < 4) (hne : m ≠ i) :
    bufWord (setBufWord buf i v) m = bufWord buf m :=
  (bufWord_setBufWord buf i m v hm).trans (if_neg hne)

theorem readReg_withCmd {r : Reg} (h : r ≠ .cmd) (g : Regs) (w : Word) :
    readReg r { g with cmd := w } = readReg r g := by
  cases r
  case cmd => exact absurd rfl h
  all_goals rfl

theorem readReg_withOpa {r : Reg} (hlo : r ≠ .opaLo) (hhi : r ≠ .opaHi) (g : Regs) (v : DWord) :
    readReg r { g with opa := v } = readReg r g := by
  cases r
  case opaLo => exact absurd rfl hlo
  case opaHi => exact absurd rfl hhi
  all_goals rfl

theorem readReg_withOpb {r : Reg} (hlo : r ≠ .opbLo) (hhi : r ≠ .opbHi) (g : Regs) (v : DWord) :
    readReg r { g with opb := v } = readReg r g := by
  cases r
  case opbLo => exact absurd rfl hlo
  case opbHi => exact absurd rfl hhi
  all_goals rfl

theorem readReg_withLens {r : Reg} (h : r ≠ .dlens) (g : Regs) (la lb : BitVec 7) :
    readReg r { g with la := la, lb := lb } = readReg r g := by
  cases r
  case dlens => exact absurd rfl h
  all_goals rfl

theorem readReg_withHexLen {r : Reg} (h : r ≠ .hexLen) (g : Regs) (len : BitVec 8) :
    readReg r { g with hexLen := len } = readReg r g := by
  cases r
  case hexLen => exact absurd rfl h
  all_goals rfl

theorem readReg_withHexIn {r : Reg} (h : r ∉ [Reg.hexIn0, .hexIn1, .hexIn2, .hexIn3]) (g : Regs)
    (buf : Vector Byte 16) : readReg r { g with hexIn := buf } = readReg r g := by
  cases r
  case hexIn0 | hexIn1 | hexIn2 | hexIn3 => simp at h
  all_goals rfl

/-- A stored word of HEXIN changes that word's slot alone (10_state.md R31). -/
theorem readReg_withHexInWord {r : Reg} {i : Nat} (h0 : r = .hexIn0 → 0 ≠ i) (h1 : r = .hexIn1 → 1 ≠ i)
    (h2 : r = .hexIn2 → 2 ≠ i) (h3 : r = .hexIn3 → 3 ≠ i) (g : Regs) (v : Word) :
    readReg r { g with hexIn := setBufWord g.hexIn i v } = readReg r g := by
  cases r
  case hexIn0 => exact bufWord_setBufWord_ne g.hexIn v (by decide) (h0 rfl)
  case hexIn1 => exact bufWord_setBufWord_ne g.hexIn v (by decide) (h1 rfl)
  case hexIn2 => exact bufWord_setBufWord_ne g.hexIn v (by decide) (h2 rfl)
  case hexIn3 => exact bufWord_setBufWord_ne g.hexIn v (by decide) (h3 rfl)
  all_goals exact readReg_withHexIn (by decide) g _

/-- A store leaves every other register alone, the other half of a 64-bit one included (20_memory.md R53). -/
theorem readReg_storeReg_other {r r' : Reg} (h : r' ≠ r) (v : Word) (g : Regs) :
    readReg r' (storeReg r v g) = readReg r' g := by
  cases r
  case cmd => exact readReg_withCmd h g v
  case opaLo =>
    by_cases hhi : r' = .opaHi
    · subst hhi; exact hiHalf_withLo g.opa v
    · exact readReg_withOpa h hhi g _
  case opaHi =>
    by_cases hlo : r' = .opaLo
    · subst hlo; exact loHalf_withHi g.opa v
    · exact readReg_withOpa hlo h g _
  case opbLo =>
    by_cases hhi : r' = .opbHi
    · subst hhi; exact hiHalf_withLo g.opb v
    · exact readReg_withOpb h hhi g _
  case opbHi =>
    by_cases hlo : r' = .opbLo
    · subst hlo; exact loHalf_withHi g.opb v
    · exact readReg_withOpb hlo h g _
  case dlens => exact readReg_withLens h g _ _
  case hexLen => exact readReg_withHexLen h g _
  case hexIn0 =>
    exact readReg_withHexInWord (absurd · h) (fun _ => by decide) (fun _ => by decide) (fun _ => by decide) g v
  case hexIn1 =>
    exact readReg_withHexInWord (fun _ => by decide) (absurd · h) (fun _ => by decide) (fun _ => by decide) g v
  case hexIn2 =>
    exact readReg_withHexInWord (fun _ => by decide) (fun _ => by decide) (absurd · h) (fun _ => by decide) g v
  case hexIn3 =>
    exact readReg_withHexInWord (fun _ => by decide) (fun _ => by decide) (fun _ => by decide) (absurd · h) g v
  all_goals rfl

/-- A write to an aligned offset where no RW register is completes and changes nothing (10_state.md R25, R26). -/
theorem access_wr_not_rw {off : Offset} (halign : off.toNat % 4 = 0)
    (h : ∀ r : Reg, Reg.ofOffset off = some r → r.accessKind = .ro) (v : Word) (s : State) :
    access (Request.wr off v) s = .next (s.respond .done) := by
  cases ho : Reg.ofOffset off with
  | some r =>
    have hro := h r ho
    rw [ofOffset_eq_some.mp ho]
    exact access_wr_ro hro v s
  | none =>
    have hcmd : off ≠ Reg.offset .cmd := by rintro rfl; simp at ho
    rw [access_write ((legal_iff _).mpr ⟨halign, rfl⟩) rfl, wr_addr, wr_wdata, hostWrite_other hcmd, storeSlot, ho]
    rfl

/-- The HI half written after the LO half, or before it, is the register HI ++ LO (20_memory.md R53). -/
theorem withHi_withLo (v : DWord) (hi lo : Word) : withHi (withLo v lo) hi = hi ++ lo := by
  rw [withHi, loHalf_withLo]

theorem withLo_withHi (v : DWord) (hi lo : Word) : withLo (withHi v hi) lo = hi ++ lo := by
  rw [withLo, hiHalf_withHi]

/-! ### A write repeated (20_memory.md R57) -/

theorem withLo_withLo (v : DWord) (x : Word) : withLo (withLo v x) x = withLo v x := by
  rw [withLo, hiHalf_withLo, withLo]

theorem withHi_withHi (v : DWord) (x : Word) : withHi (withHi v x) x = withHi v x := by
  rw [withHi, loHalf_withHi, withHi]

theorem setBufWord_setBufWord (buf : Vector Byte 16) (i : Nat) (v : Word) :
    setBufWord (setBufWord buf i v) i v = setBufWord buf i v := by
  refine buf_ext fun k hk => ?_
  rw [charAt_setBufWord _ i v k hk, charAt_setBufWord buf i v k hk]
  split <;> rfl

/-- The same word stored twice is as stored once. -/
theorem storeReg_storeReg (r : Reg) (v : Word) (g : Regs) : storeReg r v (storeReg r v g) = storeReg r v g := by
  cases r
  case opaLo | opbLo => simp only [storeReg, withLo_withLo]
  case opaHi | opbHi => simp only [storeReg, withHi_withHi]
  case hexIn0 | hexIn1 | hexIn2 | hexIn3 => simp only [storeReg, setBufWord_setBufWord]
  all_goals rfl

theorem storeSlot_storeSlot (off : Offset) (v : Word) (g : Regs) :
    storeSlot off v (storeSlot off v g) = storeSlot off v g := by
  cases ho : Reg.ofOffset off with
  | none => simp only [storeSlot, ho]
  | some r => simp only [storeSlot, ho, storeReg_storeReg]

/-- DEC keeps HEXIN, on success and on error (40_codec.md R108–R110). -/
theorem decode_hexIn (g : Regs) (n : Nat) (v : DWord) : (g.decode n v).hexIn = g.hexIn := by
  cases hc : (checkHex n g.hexLen g.hexIn).valid with
  | true => rw [decode_valid hc]
  | false => rw [decode_invalid hc]

/-- DEC again gives the same: it writes neither HEXLEN nor HEXIN. -/
theorem decode_decode (g : Regs) (n : Nat) (v : DWord) : (g.decode n v).decode n v = g.decode n v := by
  cases hc : (checkHex n g.hexLen g.hexIn).valid with
  | true =>
    rw [decode_valid hc]
    exact decode_valid (g := { g with res := v, status := _ }) hc v
  | false =>
    rw [decode_invalid hc]
    exact decode_invalid (g := { g with status := _ }) hc v

/-- DIFF again gives the same: it writes neither OPA, OPB nor DLENS. -/
theorem diff_diff (g : Regs) : g.diff.diff = g.diff := by
  by_cases h : 64 < g.la.toNat ∨ 64 < g.lb.toNat
  · rw [diff_illegal h]; exact diff_illegal (g := { g with status := _ }) h
  · rw [diff_legal h]; exact diff_legal (g := { g with dmask := _, dlen := _, status := _ }) h

/-- A command run again with unchanged operands writes the same values again. -/
theorem commandRegs_commandRegs (i : Instr) (g : Regs) : commandRegs i (commandRegs i g) = commandRegs i g := by
  cases i
  case enc32 => simp only [commandRegs, enc32_eq, Regs.opa32]
  case enc64 => simp only [commandRegs, enc64_eq]
  case ext32 | ext64 =>
    simp only [commandRegs, Regs.ext32, Regs.ext64, putFields_eq, complete_eq, Regs.opa32]
  case cmp32 => simp only [commandRegs, cmp32_eq, Regs.opa32, Regs.opb32]
  case cmp64 => simp only [commandRegs, cmp64_eq]
  case dec32 => simp only [commandRegs, Regs.dec32, decode_hexIn, decode_decode]
  case dec64 => simp only [commandRegs, Regs.dec64, decode_hexIn, decode_decode]
  case diff => exact diff_diff g
  case rtv32 => simp only [commandRegs, rtv32_eq, putHexOut_eq, putRes_eq, complete_eq, Regs.opa32]
  case rtv64 => simp only [commandRegs, rtv64_eq, putHexOut_eq, putRes_eq, complete_eq]

/-- Storing the word that CMD holds changes nothing. -/
theorem withCmd_self {w : Word} {g : Regs} (h : g.cmd = w) : { g with cmd := w } = g := by
  subst h
  rfl

theorem wordRegs_wordRegs (w : Word) (g : Regs) : wordRegs w (wordRegs w g) = wordRegs w g := by
  cases hd : decode w with
  | ok i =>
    obtain ⟨hcmd, -⟩ := commandRegs_keeps i { g with cmd := w }
    rw [wordRegs_of_command hd, wordRegs_of_command hd, withCmd_self hcmd, commandRegs_commandRegs]
  | error e => simp only [wordRegs_of_illegal hd]

/-- Any access repeated leaves what it left the first time. -/
theorem accessRegs_accessRegs (q : Request) (g : Regs) : accessRegs q (accessRegs q g) = accessRegs q g := by
  unfold accessRegs
  split
  · split
    · exact wordRegs_wordRegs q.wdata g
    · exact storeSlot_storeSlot q.addr q.wdata g
  · rfl

/-- What a write is answered does not depend on the registers (20_memory.md R68). -/
theorem accessResponse_of_write {q : Request} (hw : q.write = true) (g g' : Regs) :
    accessResponse q g = accessResponse q g' := by
  simp only [accessResponse, hw, if_true]

/-! ### The operands a command depends on (20_memory.md R58, 30_encoding.md R84) -/

/-- A 64-bit register is the same in two states when both its slots read alike (20_memory.md R53). -/
theorem dword_ext {a b : DWord} (hlo : loHalf a = loHalf b) (hhi : hiHalf a = hiHalf b) : a = b := by
  rw [← hiHalf_append_loHalf a, ← hiHalf_append_loHalf b, hlo, hhi]

/-- A buffer is the same in two states when its four words read alike (10_state.md R31). -/
theorem buf_ext_words {a b : Vector Byte 16} (h : ∀ m, m < 4 → bufWord a m = bufWord b m) : a = b := by
  refine buf_ext fun k hk => ?_
  have hk4 : 4 * (k / 4) + k % 4 = k := Nat.div_add_mod k 4
  have hbyte := fun buf => bufWord_byte buf (k / 4) (k % 4) (Nat.mod_lt k (by decide))
  rw [hk4] at hbyte
  rw [← hbyte a, ← hbyte b, h (k / 4) (by omega)]

/-- HEXLEN's slot shows all of LEN (10_state.md R31). -/
theorem hexLen_eq_of_readReg {g g' : Regs} (h : readReg .hexLen g = readReg .hexLen g') : g.hexLen = g'.hexLen := by
  have := congrArg (BitVec.setWidth 8) h
  simpa [readReg] using this

theorem hexIn_eq_of_readReg {g g' : Regs}
    (h : ∀ r ∈ [Reg.hexIn0, .hexIn1, .hexIn2, .hexIn3], readReg r g = readReg r g') : g.hexIn = g'.hexIn := by
  refine buf_ext_words fun m hm => ?_
  interval_cases m
  · exact h .hexIn0 (by decide)
  · exact h .hexIn1 (by decide)
  · exact h .hexIn2 (by decide)
  · exact h .hexIn3 (by decide)

theorem dlens_eq_of_readReg {g g' : Regs} (h : readReg .dlens g = readReg .dlens g') :
    g.la = g'.la ∧ g.lb = g'.lb := by
  rw [← readReg_dlens_la g, ← readReg_dlens_la g', ← readReg_dlens_lb g, ← readReg_dlens_lb g', h]
  exact ⟨rfl, rfl⟩

/-! What a command leaves in the registers it writes does not depend on the state it writes them to. -/

theorem readReg_putHexOut_congr {r : Reg} (h : r ∈ [Reg.hexOut0, .hexOut1, .hexOut2, .hexOut3, .hexOutLen, .status])
    (g g' : Regs) (buf : Vector Byte 16) (len : BitVec 5) :
    readReg r (g.putHexOut buf len).complete = readReg r (g'.putHexOut buf len).complete := by
  simp only [List.mem_cons, List.not_mem_nil, or_false] at h
  rcases h with rfl | rfl | rfl | rfl | rfl | rfl <;> rfl

theorem readReg_putRes_congr {r : Reg} (h : r ∈ [Reg.resLo, .resHi, .status]) (g g' : Regs) (v : DWord) :
    readReg r (g.putRes v).complete = readReg r (g'.putRes v).complete := by
  simp only [List.mem_cons, List.not_mem_nil, or_false] at h
  rcases h with rfl | rfl | rfl <;> rfl

theorem readReg_putFields_congr {r : Reg} (h : r ∈ [Reg.fsign, .fexp, .fmantLo, .fmantHi, .status]) (g g' : Regs)
    (a : BitVec 1) (b : BitVec 11) (c : BitVec 52) :
    readReg r (g.putFields a b c).complete = readReg r (g'.putFields a b c).complete := by
  simp only [List.mem_cons, List.not_mem_nil, or_false] at h
  rcases h with rfl | rfl | rfl | rfl | rfl <;> rfl

theorem readReg_putDiff_congr {r : Reg} (h : r ∈ [Reg.dmaskLo, .dmaskHi, .dlen, .status]) (g g' : Regs) (m : DWord)
    (n : BitVec 7) : readReg r (g.putDiff m n).complete = readReg r (g'.putDiff m n).complete := by
  simp only [List.mem_cons, List.not_mem_nil, or_false] at h
  rcases h with rfl | rfl | rfl | rfl <;> rfl

/-- RTV writes HEXOUT, then RES, then STATUS (40_codec.md R120, R121). -/
theorem readReg_putHexOut_putRes_congr {r : Reg}
    (h : r ∈ [Reg.hexOut0, .hexOut1, .hexOut2, .hexOut3, .hexOutLen, .resLo, .resHi, .status]) (g g' : Regs)
    (buf : Vector Byte 16) (len : BitVec 5) (v : DWord) :
    readReg r ((g.putHexOut buf len).putRes v).complete = readReg r ((g'.putHexOut buf len).putRes v).complete := by
  simp only [List.mem_cons, List.not_mem_nil, or_false] at h
  rcases h with rfl | rfl | rfl | rfl | rfl | rfl | rfl | rfl <;> rfl

/-- DEC depends on HEXLEN and HEXIN: with the same ones, and the same value to write, its write set reads alike. -/
theorem readReg_decode_congr {n : Nat} {v : DWord} {g g' : Regs} (hlen : g.hexLen = g'.hexLen)
    (hin : g.hexIn = g'.hexIn) {r : Reg}
    (hr : r ∈ if (checkHex n g.hexLen g.hexIn).valid then [Reg.resLo, .resHi, .status] else [.status]) :
    readReg r (g.decode n v) = readReg r (g'.decode n v) := by
  cases hc : (checkHex n g.hexLen g.hexIn).valid with
  | true =>
    have hc' : (checkHex n g'.hexLen g'.hexIn).valid = true := by rw [← hlen, ← hin, hc]
    rw [hc, if_pos rfl] at hr
    simp only [Regs.decode, if_pos hc, if_pos hc']
    exact readReg_putRes_congr hr g g' v
  | false =>
    have hc' : (checkHex n g'.hexLen g'.hexIn).valid = false := by rw [← hlen, ← hin, hc]
    rw [hc, if_neg (by decide), List.mem_singleton] at hr
    rw [decode_invalid hc, decode_invalid hc', hlen, hin, hr]
    rfl

/-- DIFF depends on OPA, OPB and DLENS. -/
theorem readReg_diff_congr {g g' : Regs} (ha : g.opa = g'.opa) (hb : g.opb = g'.opb) (hla : g.la = g'.la)
    (hlb : g.lb = g'.lb) {r : Reg} (hr : r ∈ writeSet .diff (succeeds .diff g)) :
    readReg r g.diff = readReg r g'.diff := by
  by_cases hlen : 64 < g.la.toNat ∨ 64 < g.lb.toNat
  · have hfail : succeeds .diff g = false := Bool.eq_false_iff.mpr fun hs => diff_succeeds.mp hs hlen
    rw [hfail] at hr
    rw [List.mem_singleton.mp hr, diff_illegal hlen, diff_illegal (hla ▸ hlb ▸ hlen)]
    rfl
  · have hlen' : ¬(64 < g'.la.toNat ∨ 64 < g'.lb.toNat) := hla ▸ hlb ▸ hlen
    rw [diff_succeeds.mpr hlen] at hr
    simp only [Regs.diff, Config.diffMaxLen, if_neg hlen', ha, hb, hla, hlb]
    exact readReg_putDiff_congr hr g g' _ _

/-- Whether a command succeeds depends on its operand registers alone (40_codec.md R106, 42_diff.md R160). -/
theorem succeeds_congr {i : Instr} {g g' : Regs} (h : ∀ r ∈ readSet i, readReg r g = readReg r g') :
    succeeds i g = succeeds i g' := by
  cases i
  case dec32 | dec64 =>
    have hlen := hexLen_eq_of_readReg (h .hexLen (by decide))
    have hin := hexIn_eq_of_readReg fun r hr => h r (List.mem_cons_of_mem _ hr)
    simp only [succeeds, hlen, hin]
  case diff =>
    obtain ⟨hla, hlb⟩ := dlens_eq_of_readReg (h .dlens (by decide))
    simp only [succeeds, hla, hlb]
  all_goals rfl

/-- What a command leaves in its write set depends on its operand registers alone. -/
theorem readReg_commandRegs_congr {i : Instr} {g g' : Regs} (h : ∀ r ∈ readSet i, readReg r g = readReg r g')
    {r : Reg} (hr : r ∈ writeSet i (succeeds i g)) : readReg r (commandRegs i g) = readReg r (commandRegs i g') := by
  cases i
  case enc32 =>
    have ha : g.opa32 = g'.opa32 := h .opaLo (by decide)
    simp only [commandRegs, Regs.enc32, ha]
    exact readReg_putHexOut_congr hr g g' _ _
  case ext32 =>
    have ha : g.opa32 = g'.opa32 := h .opaLo (by decide)
    simp only [commandRegs, Regs.ext32, ha]
    exact readReg_putFields_congr hr g g' _ _ _
  case rtv32 =>
    have ha : g.opa32 = g'.opa32 := h .opaLo (by decide)
    simp only [commandRegs, rtv32_eq, ha]
    exact readReg_putHexOut_putRes_congr hr g g' _ _ _
  case enc64 =>
    have ha : g.opa = g'.opa := dword_ext (h .opaLo (by decide)) (h .opaHi (by decide))
    simp only [commandRegs, Regs.enc64, ha]
    exact readReg_putHexOut_congr hr g g' _ _
  case ext64 =>
    have ha : g.opa = g'.opa := dword_ext (h .opaLo (by decide)) (h .opaHi (by decide))
    simp only [commandRegs, Regs.ext64, ha]
    exact readReg_putFields_congr hr g g' _ _ _
  case rtv64 =>
    have ha : g.opa = g'.opa := dword_ext (h .opaLo (by decide)) (h .opaHi (by decide))
    simp only [commandRegs, rtv64_eq, ha]
    exact readReg_putHexOut_putRes_congr hr g g' _ _ _
  case dec32 =>
    have hlen := hexLen_eq_of_readReg (h .hexLen (by decide))
    have hin := hexIn_eq_of_readReg fun r hr => h r (List.mem_cons_of_mem _ hr)
    simp only [commandRegs, Regs.dec32, ← hin]
    exact readReg_decode_congr hlen hin hr
  case dec64 =>
    have hlen := hexLen_eq_of_readReg (h .hexLen (by decide))
    have hin := hexIn_eq_of_readReg fun r hr => h r (List.mem_cons_of_mem _ hr)
    simp only [commandRegs, Regs.dec64, ← hin]
    exact readReg_decode_congr hlen hin hr
  case diff =>
    have ha : g.opa = g'.opa := dword_ext (h .opaLo (by decide)) (h .opaHi (by decide))
    have hb : g.opb = g'.opb := dword_ext (h .opbLo (by decide)) (h .opbHi (by decide))
    obtain ⟨hla, hlb⟩ := dlens_eq_of_readReg (h .dlens (by decide))
    exact readReg_diff_congr ha hb hla hlb hr
  case cmp32 =>
    have ha : g.opa32 = g'.opa32 := h .opaLo (by decide)
    have hb : g.opb32 = g'.opb32 := h .opbLo (by decide)
    simp only [commandRegs, Regs.cmp32, ha, hb]
    exact readReg_putDiff_congr hr g g' _ _
  case cmp64 =>
    have ha : g.opa = g'.opa := dword_ext (h .opaLo (by decide)) (h .opaHi (by decide))
    have hb : g.opb = g'.opb := dword_ext (h .opbLo (by decide)) (h .opbHi (by decide))
    simp only [commandRegs, Regs.cmp64, ha, hb]
    exact readReg_putDiff_congr hr g g' _ _

/-! ### The byte lanes of the window (20_memory.md R51) -/

/-- The slot of byte 4·i + j is slot i. -/
theorem slotOf_lane : ∀ i < 64, ∀ j < 4, slotOf (BitVec.ofNat 8 (4 * i + j)) = BitVec.ofNat 8 (4 * i) := by
  decide +kernel

theorem windowByte_lane {i j : Nat} (hi : i < 64) (hj : j < 4) (g : Regs) :
    windowByte (BitVec.ofNat 8 (4 * i + j)) g = (readSlot (BitVec.ofNat 8 (4 * i)) g).extractLsb' (8 * j) 8 := by
  have hmod : (BitVec.ofNat 8 (4 * i + j)).toNat % 4 = j := by rw [BitVec.toNat_ofNat]; omega
  rw [windowByte, slotOf_lane i hi j hj, hmod]

/-- Slots 8 to 11 are HEXIN's words in order (10_state.md R24, R31). -/
theorem readSlot_hexIn {m : Nat} (hm : m < 4) (g : Regs) :
    readSlot (BitVec.ofNat 8 (4 * (8 + m))) g = bufWord g.hexIn m := by
  interval_cases m
  · exact readSlot_offset .hexIn0 g
  · exact readSlot_offset .hexIn1 g
  · exact readSlot_offset .hexIn2 g
  · exact readSlot_offset .hexIn3 g

/-- Slots 12 to 15 are HEXOUT's words in order (10_state.md R24, R32). -/
theorem readSlot_hexOut {m : Nat} (hm : m < 4) (g : Regs) :
    readSlot (BitVec.ofNat 8 (4 * (12 + m))) g = bufWord g.hexOut m := by
  interval_cases m
  · exact readSlot_offset .hexOut0 g
  · exact readSlot_offset .hexOut1 g
  · exact readSlot_offset .hexOut2 g
  · exact readSlot_offset .hexOut3 g

/-- Byte k of four slots that hold a buffer's words in order is the buffer's character k. -/
theorem windowByte_buf {i k : Nat} {buf : Vector Byte 16} {g : Regs} (hi : i + 4 ≤ 64) (hk : k < 16)
    (h : ∀ m, m < 4 → readSlot (BitVec.ofNat 8 (4 * (i + m))) g = bufWord buf m) :
    windowByte (BitVec.ofNat 8 (4 * i + k)) g = charAt buf k := by
  have hj : k % 4 < 4 := Nat.mod_lt k (by decide)
  have hsplit : 4 * i + k = 4 * (i + k / 4) + k % 4 := by omega
  have hchar : 4 * (k / 4) + k % 4 = k := Nat.div_add_mod k 4
  rw [hsplit, windowByte_lane (by omega) hj, h _ (by omega), bufWord_byte buf _ _ hj, hchar]

/-! ### Accesses outside reset, and runs of them (20_memory.md R61) -/

theorem handled_access (q : Request) {s : State} (hr : s.rst = false) :
    handled (.access q) s = (s.setRegs (accessRegs q s.regs)).respond (accessResponse q s.regs) := by
  simp only [handled, hr, Bool.false_eq_true, if_false]

/-- Two writes outside CMD, one after the other. -/
theorem after_wr_wr {r r' : Reg} (h : r ≠ .cmd) (h' : r' ≠ .cmd) (v v' : Word) {s : State} (hr : s.rst = false) :
    after [.access (wrReg r v), .access (wrReg r' v')] s =
      .next { s with regs := storeReg r' v' (storeReg r v s.regs), pending := [], resp := some .done } := by
  have hr' : ((s.setRegs (storeReg r v s.regs)).respond .done).rst = false := hr
  simp only [after_eq, List.foldl_cons, List.foldl_nil, wrReg, handled_wr h v hr, handled_wr h' v' hr']
  rfl

/-- A word written to CMD leaves every other RW register alone (10_state.md R29, R40). -/
theorem readReg_wordRegs {r : Reg} (hrw : r.accessKind = .rw) (hcmd : r ≠ .cmd) (w : Word) (g : Regs) :
    readReg r (wordRegs w g) = readReg r g := by
  obtain ⟨-, hopa, hopb, hla, hlb, hlen, hin⟩ := wordRegs_keeps w g
  cases r
  case cmd => exact absurd rfl hcmd
  case opaLo | opaHi => simp only [readReg, hopa]
  case opbLo | opbHi => simp only [readReg, hopb]
  case dlens => simp only [readReg, hla, hlb]
  case hexLen => simp only [readReg, hlen]
  case hexIn0 | hexIn1 | hexIn2 | hexIn3 => simp only [readReg, hin]
  all_goals cases hrw

/-- A write of an RW register leaves its defined bits there, a CMD write included (20_memory.md R57). -/
theorem readReg_accessRegs_wr {r : Reg} (hrw : r.accessKind = .rw) (v : Word) (g : Regs) :
    readReg r (accessRegs (wrReg r v) g) = v &&& r.definedMask := by
  by_cases hcmd : r = .cmd
  · subst hcmd
    obtain ⟨hkeep, -⟩ := wordRegs_keeps v g
    exact hkeep.trans BitVec.and_allOnes.symm
  · have hoff : r.offset ≠ Reg.offset .cmd := fun h => hcmd (offset_injective h)
    have heq : accessRegs (wrReg r v) g = storeReg r v g := by
      simp [accessRegs, wrReg, hoff]
    rw [heq, readReg_storeReg_same hrw]

/-- An access that is no legal write of an RW register leaves it alone: it reads, is refused, runs a command, or stores
elsewhere. -/
theorem readReg_accessRegs_of_not_writes {q : Request} {r : Reg} (hrw : r.accessKind = .rw)
    (hq : Event.writes r.offset (.access q) = false) (g : Regs) : readReg r (accessRegs q g) = readReg r g := by
  cases hw : q.legal && q.write with
  | false => simp only [accessRegs, hw, Bool.false_eq_true, if_false]
  | true =>
    have hoff : q.addr ≠ r.offset := by simpa [Event.writes, hw] using hq
    simp only [accessRegs, hw, if_true]
    split
    case isTrue hcmd => exact readReg_wordRegs hrw (fun h => hoff (h ▸ hcmd)) q.wdata g
    case isFalse =>
      cases ho : Reg.ofOffset q.addr with
      | none => simp only [storeSlot, ho]
      | some r' =>
        have hne : r ≠ r' := fun h => hoff (h ▸ ofOffset_eq_some.mp ho)
        simp only [storeSlot, ho]
        exact readReg_storeReg_other hne q.wdata g

/-- Accesses that do not write an RW register leave it alone, however many arrive. -/
theorem readReg_foldl_handled {r : Reg} (hrw : r.accessKind = .rw) {es : List Event}
    (h : ∀ e ∈ es, e.isAccess = true ∧ e.writes r.offset = false) {s : State} (hr : s.rst = false) :
    (es.foldl (fun t e => handled e t) s).rst = false ∧
      readReg r (es.foldl (fun t e => handled e t) s).regs = readReg r s.regs := by
  induction es generalizing s with
  | nil => exact ⟨hr, rfl⟩
  | cons e es ih =>
    obtain ⟨hacc, hw⟩ := h e List.mem_cons_self
    cases e with
    | rstRise u => cases hacc
    | rstFall => cases hacc
    | access q =>
      rw [List.foldl_cons, handled_access q hr]
      obtain ⟨hrst, hread⟩ := ih (fun e he => h e (List.mem_cons_of_mem _ he))
        (s := (s.setRegs (accessRegs q s.regs)).respond (accessResponse q s.regs)) hr
      exact ⟨hrst, hread.trans (readReg_accessRegs_of_not_writes hrw hw s.regs)⟩

/-! ### What an event does to the registers and rst (20_memory.md R62, 70_reset_and_hazards.md R221) -/

/-- It depends on the registers and rst alone, not on what is still to arrive or was answered. -/
theorem handled_congr (e : Event) {s u : State} (hregs : u.regs = s.regs) (hrst : u.rst = s.rst) :
    (handled e u).regs = (handled e s).regs ∧ (handled e u).rst = (handled e s).rst := by
  have hu : { s with pending := u.pending, resp := u.resp } = u := by cases u; cases hregs; cases hrst; rfl
  have heq := handled_with e s u.pending u.resp
  rw [hu] at heq
  rw [heq]
  exact ⟨rfl, rfl⟩

/-- While rst is 1 the registers are at their reset values, whatever came before (70_reset_and_hazards.md R221). -/
theorem handled_reset (e : Event) (s : State) : (handled e s).rst = true → (handled e s).regs = Regs.reset := by
  cases hr : s.rst with
  | true => cases e <;> simp [handled, hr]
  | false => cases e <;> simp [handled, hr]

/-- A read or a refused access changes neither the registers nor rst (20_memory.md R55, R56). -/
theorem handled_passive {e : Event} (he : e.passive = true) {s : State} (h : s.rst = true → s.regs = Regs.reset) :
    (handled e s).regs = s.regs ∧ (handled e s).rst = s.rst := by
  cases e with
  | rstRise u => cases he
  | rstFall => cases he
  | access q =>
    cases hr : s.rst with
    | true => simp [handled, hr, h hr]
    | false =>
      rw [handled_access q hr, accessRegs_passive he]
      exact ⟨rfl, hr⟩

/-- A run with passive accesses merged in ends with the registers and rst of the run without them. -/
theorem foldl_handled_interleaving {xs ys zs : List Event} (hi : Interleaving xs ys zs)
    (hy : ∀ e ∈ ys, e.passive = true) {s u : State} (hs : s.rst = true → s.regs = Regs.reset)
    (hregs : u.regs = s.regs) (hrst : u.rst = s.rst) :
    (zs.foldl (fun t e => handled e t) u).regs = (xs.foldl (fun t e => handled e t) s).regs ∧
      (zs.foldl (fun t e => handled e t) u).rst = (xs.foldl (fun t e => handled e t) s).rst := by
  induction hi generalizing s u with
  | nil => exact ⟨hregs, hrst⟩
  | @left e xs ys zs _ ih =>
    obtain ⟨hregs', hrst'⟩ := handled_congr e hregs hrst
    exact ih hy (handled_reset e _) hregs' hrst'
  | @right e xs ys zs _ ih =>
    have hu : u.rst = true → u.regs = Regs.reset := by rw [hregs, hrst]; exact hs
    obtain ⟨hregs', hrst'⟩ := handled_passive (hy e List.mem_cons_self) hu
    exact ih (fun e he => hy e (List.mem_cons_of_mem _ he)) hs (hregs'.trans hregs) (hrst'.trans hrst)

/-! ### The statements of 20_memory.md -/

/-- Settles O6: such an access is not legal, so the step it heads is the error response alone. -/
theorem badAccessGetsBusErrorAndChangesNothing : Obligations.BadAccessGetsBusErrorAndChangesNothing := by
  unfold Obligations.BadAccessGetsBusErrorAndChangesNothing
  intro s q rest hr hp hbad
  have hlegal : q.legal = false := by
    rw [Bool.eq_false_iff, ne_eq, legal_iff]
    tauto
  rw [step_access hr hp, access_illegal hlegal]
  rfl

/-- Settles O7: the store's own slot reads the defined bits, every other slot as before. -/
theorem hostWriteStoresOnlyItsRegister : Obligations.HostWriteStoresOnlyItsRegister := by
  unfold Obligations.HostWriteStoresOnlyItsRegister
  refine ⟨fun s r v hrw hcmd => ?_, fun s off v halign hro => access_wr_not_rw halign hro v s⟩
  exact ⟨_, access_wr_other hcmd v s, rfl, readReg_storeReg_same hrw v s.regs,
    fun r' hne => readReg_storeReg_other hne v s.regs, rfl, rfl⟩

/-- Settles O8: the second write leaves the registers and gives the answer that the first did. -/
theorem writesAreIdempotent : Obligations.WritesAreIdempotent := by
  unfold Obligations.WritesAreIdempotent
  intro s q hw
  refine ⟨_, access_eq q s, ?_⟩
  rw [access_eq, respond_regs, setRegs_regs, accessRegs_accessRegs,
    accessResponse_of_write hw (accessRegs q s.regs) s.regs]
  rfl

/-- Settles O9: lane by lane, and slots 8–11 and 12–15 hold the buffers' words. -/
theorem windowBytesAreLittleEndianLanes : Obligations.WindowBytesAreLittleEndianLanes := by
  unfold Obligations.WindowBytesAreLittleEndianLanes
  refine ⟨fun g i j hi hj => windowByte_lane hi hj g, fun g k hk => ⟨?_, ?_⟩⟩
  · exact windowByte_buf (i := 8) (by decide) hk fun m hm => readSlot_hexIn hm g
  · exact windowByte_buf (i := 12) (by decide) hk fun m hm => readSlot_hexOut hm g

/-- Settles O10: either order stores HI ++ LO. -/
theorem operandHalvesMayComeInEitherOrder : Obligations.OperandHalvesMayComeInEitherOrder := by
  unfold Obligations.OperandHalvesMayComeInEitherOrder
  intro s lo hi hr
  constructor
  all_goals
    refine ⟨_, _, after_wr_wr (by decide) (by decide) lo hi hr,
      after_wr_wr (by decide) (by decide) hi lo hr, ?_, ?_⟩
    · simp only [storeReg, withHi_withLo]
    · simp only [storeReg, withHi_withLo, withLo_withHi]

/-- Settles O45: command by command, its check and what it writes are functions of its operand registers. -/
theorem commandsReadOnlyTheirOperands : Obligations.CommandsReadOnlyTheirOperands := by
  unfold Obligations.CommandsReadOnlyTheirOperands
  intro i s u h
  exact ⟨_, _, exec_eq i s, exec_eq i u, succeeds_congr h, fun r hr => readReg_commandRegs_congr h hr⟩

/-- Settles O52: the write leaves its defined bits, no access in between touches them, and the read answers them. -/
theorem readsSeeTheLastWrite : Obligations.ReadsSeeTheLastWrite := by
  unfold Obligations.ReadsSeeTheLastWrite
  intro s r v between hr hrw hbetween
  refine ⟨_, after_eq _ s, ?_⟩
  rw [List.foldl_cons, List.foldl_append, handled_access _ hr]
  obtain ⟨hrst, hread⟩ := readReg_foldl_handled hrw hbetween
    (s := (s.setRegs (accessRegs (wrReg r v) s.regs)).respond (accessResponse (wrReg r v) s.regs)) hr
  rw [List.foldl_cons, List.foldl_nil, rdReg, handled_rd r hrst, respond_resp, hread, respond_regs, setRegs_regs,
    readReg_accessRegs_wr hrw]

/-- Settles O53: event by event along the merge, by `foldl_handled_interleaving`. -/
theorem interleavedReadsAreInvisible : Obligations.InterleavedReadsAreInvisible := by
  unfold Obligations.InterleavedReadsAreInvisible
  intro xs ys zs s hi hy hs
  exact ⟨_, _, after_eq xs s, after_eq zs s, foldl_handled_interleaving hi hy hs rfl rfl⟩

/-- Settles O54: by induction on the first part; what is still to arrive does not matter to an event. -/
theorem eventsAreTakenInArrivalOrder : Obligations.EventsAreTakenInArrivalOrder := by
  unfold Obligations.EventsAreTakenInArrivalOrder
  intro xs ys
  induction xs with
  | nil =>
    intro s t h
    cases h
    rfl
  | cons e xs ih =>
    intro s t h
    rw [after_cons (handle_eq e _), handled_pend] at h
    rw [List.cons_append, after_cons (handle_eq e _), handled_pend]
    exact ih (handled e s) t h

/-- Settles O58: the CMD write leaves the command's registers, and the read answers from them. -/
theorem readsAfterACommandSeeItsResults : Obligations.ReadsAfterACommandSeeItsResults := by
  unfold Obligations.ReadsAfterACommandSeeItsResults
  intro s i r hr
  have hr' : ((s.setRegs (commandRegs i { s.regs with cmd := encode i })).respond .done).rst = false := hr
  refine ⟨_, _, exec_eq i _, after_eq _ s, ?_⟩
  rw [List.foldl_cons, List.foldl_cons, List.foldl_nil, wrReg, rdReg, handled_cmd i hr, handled_rd r hr']
  exact ⟨rfl, rfl⟩

/-- Settles O5: a legal read answers its slot, whose undefined bits are 0, and leaves the registers as they were. -/
theorem hostReadReturnsTheRegister : Obligations.HostReadReturnsTheRegister := by
  unfold Obligations.HostReadReturnsTheRegister
  refine ⟨fun s r => ⟨?_, readReg_undefined_bits r s.regs⟩, fun s q hw halign hsize => ?_⟩
  · rw [access_read (legal_rd_offset r) rfl, rd_addr, readSlot_offset]
  · have hread := access_read ((legal_iff q).mpr ⟨halign, hsize⟩) hw
    refine ⟨_, readSlot q.addr s.regs, hread s, rfl, rfl, rfl, rfl, hread _, fun hres => ?_⟩
    rw [readSlot, (ofOffset_eq_none q.addr halign).mpr hres]

/-- Settles O11: the window is the 256 addresses from BASE_ADDR on, and an offset is below 256. -/
theorem windowSitsAtBaseAddr : Obligations.WindowSitsAtBaseAddr := by
  unfold Obligations.WindowSitsAtBaseAddr
  have hin : ∀ (p : Config.OpenParams) (write : Bool) (off : Offset) (size : BitVec 3) (v : Word),
      busRequest p write (p.baseAddr + off.toNat) size v =
        some { write := write, addr := off, size := size, wdata := v } := by
    intro p write off size v
    have hoff := off.isLt
    rw [busRequest, if_pos (by simp only [Config.windowSize]; omega), Nat.add_sub_cancel_left, BitVec.ofNat_toNat,
      BitVec.setWidth_eq]
  refine ⟨hin, fun p r v => hin p true r.offset 2 v, fun p write addr size v hout => ?_⟩
  exact if_neg (by simp only [Config.windowSize]; omega)

end Sys2Proof.Machine
end

section
/-! PROOFS of the statements of 30_encoding.md. First the layers: which words the decoder refuses; the codec and the
field slices on the strings and words that a host loads; and each host line as one step of a run. Then the statements. -/

namespace Sys2Proof.Machine

/-! ### The words the decoder refuses (30_encoding.md R83) -/

/-- OP names no command exactly when it is 0x0 or 0xC–0xF. -/
theorem opcodeOf_isOk_eq_false : ∀ op : BitVec 4, (opcodeOf op).isOk = false ↔ op.toNat = 0 ∨ 0xC ≤ op.toNat := by
  decide

/-- A refusal carries its reason. -/
theorem exists_error_iff_isOk_eq_false {ε α : Type} (x : Except ε α) : (∃ e, x = .error e) ↔ x.isOk = false := by
  cases x <;> simp [Except.isOk, Except.toBool]

/-- The decoder's two checks in numbers: bits 31:4, then OP. -/
theorem exists_decode_error_iff (w : Word) :
    (∃ e, decode w = .error e) ↔ w.toNat / 16 ≠ 0 ∨ w.toNat % 16 = 0 ∨ 0xC ≤ w.toNat % 16 := by
  have hrsv : (w.extractLsb' 4 28).toNat = w.toNat / 16 := by
    rw [BitVec.extractLsb'_toNat, Nat.shiftRight_eq_div_pow]
    have := w.isLt
    omega
  have hop : (w.extractLsb' 0 4).toNat = w.toNat % 16 := by
    rw [BitVec.extractLsb'_toNat, Nat.shiftRight_zero]
  by_cases h : w.extractLsb' 4 28 = 0
  · have hzero : w.toNat / 16 = 0 := by rw [← hrsv, h]; rfl
    rw [decode, if_neg (not_not.mpr h), exists_error_iff_isOk_eq_false, opcodeOf_isOk_eq_false, hop]
    simp [hzero]
  · have hne : w.toNat / 16 ≠ 0 := fun h0 => h (BitVec.eq_of_toNat_eq (hrsv.trans h0))
    exact iff_of_true ⟨_, decode_of_reserved_bits h⟩ (.inl hne)

/-! ### Encoded words in the host's hands (40_codec.md R102, R106, R111, R112) -/

/-- `enc_N` as a host string: its N characters, and none past them. -/
theorem hostChar_encString (n : Nat) {w : Nat} (r : BitVec w) (k : Nat) :
    hostChar (encString n r) k = if k < n then encChar n r k else 0 := by
  by_cases h : k < n <;> simp [hostChar, encString, h]

/-- HEXOUT read back as a string is the encoded word's string (10_state.md R32). -/
theorem hexOutString_of_encBuf {g : Regs} {n w : Nat} {r : BitVec w} (hn : n ≤ 16) (hbuf : g.hexOut = encBuf n r)
    (hlen : g.hexOutLen.toNat = n) : g.hexOutString = encString n r := by
  rw [Regs.hexOutString, hbuf, hlen, encString]
  refine List.map_congr_left fun k hk => ?_
  have hk : k < n := List.mem_range.mp hk
  rw [charAt_encBuf n r k (by omega), if_pos hk]

/-- An encoded word passes DEC's check at its own length (40_codec.md R106). -/
theorem checkHex_encBuf_valid {n w : Nat} {len : BitVec 8} (hn : n ≤ 16) (hlen : len.toNat = n) (r : BitVec w) :
    (checkHex n len (encBuf n r)).valid = true := by
  have hnone : firstBadIndex len (encBuf n r) = none := by
    rw [firstBadIndex_eq_none, hlen]
    intro k hk
    have hchars := charsOk_encBuf hn r
    rw [charsOk, List.all_eq_true] at hchars
    exact hchars k (List.mem_range.mpr (by omega))
  simp [HexCheck.valid, checkHex, hnone, hlen]

/-- DEC's successful end on an encoded word (40_codec.md R108, R109). -/
theorem decode_of_encBuf {g : Regs} {n w : Nat} {r : BitVec w} (hn : n ≤ 16) (hbuf : g.hexIn = encBuf n r)
    (hlen : g.hexLen.toNat = n) (v : DWord) : g.decode n v = { g with res := v, status := 0x0000_0001 } := by
  refine decode_valid ?_ v
  rw [hbuf]
  exact checkHex_encBuf_valid hn hlen r

/-- DEC64 of an encoded word is the word (40_codec.md R111). -/
theorem dec64_of_encBuf {g : Regs} {r : DWord} (hbuf : g.hexIn = encBuf 16 r) (hlen : g.hexLen.toNat = 16) :
    g.dec64 = { g with res := r, status := 0x0000_0001 } := by
  have hv : decValue 64 Config.hex64Len (encBuf 16 r) = r := decValue_encBuf (n := 16) rfl (by decide) r
  rw [Regs.dec64, decode_of_encBuf (n := Config.hex64Len) (by decide) hbuf hlen, hbuf, hv]

/-- DEC32 of an encoded word is the word, zero-extended (40_codec.md R112). -/
theorem dec32_of_encBuf {g : Regs} {r : Word} (hbuf : g.hexIn = encBuf 8 r) (hlen : g.hexLen.toNat = 8) :
    g.dec32 = { g with res := r.setWidth 64, status := 0x0000_0001 } := by
  have hv : decValue 32 Config.hex32Len (encBuf 8 r) = r := decValue_encBuf (n := 8) rfl (by decide) r
  rw [Regs.dec32, decode_of_encBuf (n := Config.hex32Len) (by decide) hbuf hlen, hbuf, hv]

/-- A binary32 word held in a 64-bit register is its LO slot, and the HI slot is 0 (40_codec.md R108). -/
theorem loHalf_setWidth (x : Word) : loHalf (x.setWidth 64) = x := by
  rw [loHalf, BitVec.extractLsb'_setWidth_of_le (by decide), BitVec.extractLsb'_eq_self]

theorem hiHalf_setWidth (x : Word) : hiHalf (x.setWidth 64) = 0 := by
  apply BitVec.eq_of_getLsbD_eq
  intro j hj
  rw [hiHalf_getLsbD, BitVec.getLsbD_setWidth, BitVec.getLsbD_of_ge x (32 + j) (by omega)]
  simp

/-! ### The field slices (41_extract.md R140–R142) -/

/-- Shift and mask is the slice, at any register's width. -/
theorem maskedField_setWidth {w : Nat} (r : BitVec w) {shift width : Nat} (h : width ≤ w) (m : Nat) :
    (maskedField r shift width).setWidth m = (r.extractLsb' shift width).setWidth m := by
  apply BitVec.eq_of_getLsbD_eq
  intro j hj
  rw [BitVec.getLsbD_setWidth, BitVec.getLsbD_setWidth, maskedField_getLsbD, BitVec.getLsbD_extractLsb']
  by_cases hw : j < width
  · have hjw : j < w := by omega
    simp [hw, hjw]
  · simp [hw]

/-- EXT64 writes the three slices of OPA (41_extract.md R142). -/
theorem ext64_eq (g : Regs) : g.ext64 =
    { g with
      fsign := g.opa.extractLsb' 63 1, fexp := g.opa.extractLsb' 52 11, fmant := g.opa.extractLsb' 0 52,
      status := 0x0000_0001 } := by
  rw [Regs.ext64, putFields_eq, complete_eq, maskedField_setWidth g.opa (by decide), maskedField_setWidth g.opa (by decide),
    maskedField_setWidth g.opa (by decide)]
  simp only [BitVec.setWidth_eq]

/-- EXT32 writes the three slices of OPA_LO, zero-extended (41_extract.md R141). -/
theorem ext32_eq (g : Regs) : g.ext32 =
    { g with
      fsign := g.opa32.extractLsb' 31 1, fexp := (g.opa32.extractLsb' 23 8).setWidth 11,
      fmant := (g.opa32.extractLsb' 0 23).setWidth 52, status := 0x0000_0001 } := by
  rw [Regs.ext32, putFields_eq, complete_eq, maskedField_setWidth g.opa32 (by decide),
    maskedField_setWidth g.opa32 (by decide), maskedField_setWidth g.opa32 (by decide)]
  simp only [BitVec.setWidth_eq]

/-- A slice above a zero-extended word's own bits is 0. -/
theorem extractLsb'_setWidth_above {w : Nat} (x : BitVec w) {m s n : Nat} (h : w ≤ s) :
    (x.setWidth m).extractLsb' s n = 0 := by
  apply BitVec.eq_of_getLsbD_eq
  intro j hj
  simp [BitVec.getLsbD_of_ge x (s + j) (by omega)]

/-- What the field registers read after EXT64: OPA's slices, zero-extended (41_extract.md R142). -/
theorem readReg_ext64 (g : Regs) :
    readReg .fsign (commandRegs .ext64 g) = (g.opa.extractLsb' 63 1).setWidth 32 ∧
      readReg .fexp (commandRegs .ext64 g) = (g.opa.extractLsb' 52 11).setWidth 32 ∧
      readReg .fmantLo (commandRegs .ext64 g) = g.opa.extractLsb' 0 32 ∧
      readReg .fmantHi (commandRegs .ext64 g) = (g.opa.extractLsb' 32 20).setWidth 32 := by
  simp only [commandRegs, ext64_eq, readReg]
  refine ⟨trivial, trivial, BitVec.extractLsb'_extractLsb'_of_le (by decide), ?_⟩
  rw [BitVec.extractLsb'_extractLsb'_of_le (by decide)]

/-- What the field registers read after EXT32: OPA_LO's slices, zero-extended, so FMANT_HI reads 0 (41_extract.md R141). -/
theorem readReg_ext32 (g : Regs) :
    readReg .fsign (commandRegs .ext32 g) = (g.opa32.extractLsb' 31 1).setWidth 32 ∧
      readReg .fexp (commandRegs .ext32 g) = (g.opa32.extractLsb' 23 8).setWidth 32 ∧
      readReg .fmantLo (commandRegs .ext32 g) = (g.opa32.extractLsb' 0 23).setWidth 32 ∧
      readReg .fmantHi (commandRegs .ext32 g) = 0 := by
  simp only [commandRegs, ext32_eq, readReg]
  refine ⟨trivial, BitVec.setWidth_setWidth (by decide), ?_, ?_⟩
  · rw [← BitVec.setWidth_eq_extractLsb' (by decide), BitVec.setWidth_setWidth (by decide)]
  · rw [extractLsb'_setWidth_above _ (by decide)]
    rfl

/-! ### The buffer that `wrhex` leaves in HEXIN (30_encoding.md R88) -/

/-- A host string's first 16 characters, 0x00 after its end. -/
def hostBuf (cs : List Byte) : Vector Byte 16 := Vector.ofFn fun k => hostChar cs k

theorem charAt_hostBuf (cs : List Byte) {k : Nat} (hk : k < 16) : charAt (hostBuf cs) k = hostChar cs k := by
  simp [hostBuf, hk]

/-- A word of the buffer is the word that `wrhex` writes. -/
theorem bufWord_hostBuf (cs : List Byte) {i : Nat} (hi : i < 4) : bufWord (hostBuf cs) i = hostWord cs i := by
  rw [bufWord, charAt_hostBuf cs (by omega), charAt_hostBuf cs (by omega), charAt_hostBuf cs (by omega),
    charAt_hostBuf cs (by omega), hostWord]

/-- `wrhex`'s four writes leave nothing of the old buffer. -/
theorem setBufWord_hostWords (buf : Vector Byte 16) (cs : List Byte) :
    setBufWord (setBufWord (setBufWord (setBufWord buf 0 (hostWord cs 0)) 1 (hostWord cs 1)) 2 (hostWord cs 2)) 3
      (hostWord cs 3) = hostBuf cs := by
  refine buf_ext_words fun m hm => ?_
  rw [bufWord_hostBuf cs hm, bufWord_setBufWord _ _ _ _ hm, bufWord_setBufWord _ _ _ _ hm,
    bufWord_setBufWord _ _ _ _ hm, bufWord_setBufWord _ _ _ _ hm]
  interval_cases m <;> rfl

/-- An encoded word's string is loaded as its buffer. -/
theorem hostBuf_encString (n : Nat) {w : Nat} (r : BitVec w) : hostBuf (encString n r) = encBuf n r := by
  refine buf_ext fun k hk => ?_
  rw [charAt_hostBuf _ hk, hostChar_encString, charAt_encBuf n r k hk]

/-! ### What the host lines store (30_encoding.md R88) -/

/-- `wr64 OPA`: the two halves are the value. -/
theorem storeReg_opa_halves (v : DWord) (g : Regs) :
    storeReg .opaHi (hiHalf v) (storeReg .opaLo (loHalf v) g) = { g with opa := v } := by
  simp only [storeReg, withHi_withLo, hiHalf_append_loHalf]

/-- `wr64 OPB`, likewise. -/
theorem storeReg_opb_halves (v : DWord) (g : Regs) :
    storeReg .opbHi (hiHalf v) (storeReg .opbLo (loHalf v) g) = { g with opb := v } := by
  simp only [storeReg, withHi_withLo, hiHalf_append_loHalf]

/-- `wrlens`'s word is what DLENS reads when it holds the two lengths (10_state.md R30). -/
theorem storeReg_dlens_word (la lb : BitVec 7) (g : Regs) :
    storeReg .dlens ((lb.setWidth 32 <<< 8) ||| la.setWidth 32) g = { g with la := la, lb := lb } := by
  have hla := readReg_dlens_la { g with la := la, lb := lb }
  have hlb := readReg_dlens_lb { g with la := la, lb := lb }
  rw [readReg] at hla hlb
  rw [storeReg, hla, hlb]

/-- `wrhex`: the string's buffer in HEXIN and its length, at most 255, in HEXLEN. -/
theorem storeReg_hex_words (cs : List Byte) (g : Regs) :
    storeReg .hexLen (BitVec.ofNat 32 (min cs.length 255)) (storeReg .hexIn3 (hostWord cs 3)
      (storeReg .hexIn2 (hostWord cs 2) (storeReg .hexIn1 (hostWord cs 1) (storeReg .hexIn0 (hostWord cs 0) g)))) =
      { g with hexIn := hostBuf cs, hexLen := BitVec.ofNat 8 (min cs.length 255) } := by
  have hlen : (BitVec.ofNat 32 (min cs.length 255)).extractLsb' 0 8 = BitVec.ofNat 8 (min cs.length 255) := by
    apply BitVec.eq_of_toNat_eq
    rw [BitVec.extractLsb'_toNat, BitVec.toNat_ofNat, BitVec.toNat_ofNat, Nat.shiftRight_zero]
    omega
  simp only [storeReg, setBufWord_hostWords, hlen]

/-- STATUS after a command that completed without error reads CODE = OK alone (10_state.md R28). -/
theorem readReg_status_ok {g : Regs} (h : g.status = 0x0000_0001) : readReg .status g = 0x0000_0001 := by
  rw [readReg, h]
  decide

/-! ### Host programs, one access at a time

`after_wr`, `after_rd` and `after_cmd` rewrite a run as `responses_wr`, `responses_rd` and `responses_cmd` rewrite its
responses. -/

theorem after_event (e : Event) (es : List Event) (s : State) :
    after (e :: es) s = after es { handled e s with pending := [] } := by
  rw [after_cons (handle_eq e _), handled_pend]
  rfl

theorem after_wr {r : Reg} (hr : r ≠ .cmd) (v : Word) (es : List Event) {s : State} (h : s.rst = false) :
    after (.access (wrReg r v) :: es) s =
      after es { s with regs := storeReg r v s.regs, pending := [], resp := some .done } := by
  rw [after_event, wrReg, handled_wr hr v h]
  rfl

theorem after_rd (r : Reg) (es : List Event) {s : State} (h : s.rst = false) :
    after (.access (rdReg r) :: es) s =
      after es { s with pending := [], resp := some (.data (readReg r s.regs)) } := by
  rw [after_event, rdReg, handled_rd r h]
  rfl

theorem after_cmd (i : Instr) (es : List Event) {s : State} (h : s.rst = false) :
    after (.access (wrReg .cmd (encode i)) :: es) s =
      after es
        { s with regs := commandRegs i { s.regs with cmd := encode i }, pending := [], resp := some .done } := by
  rw [after_event, wrReg, handled_cmd i h]
  rfl

theorem responses_nil (s : State) : responses [] s = [] := rfl

/-- A host program's accesses are its lines', in order (10_state.md R23). -/
theorem hostAccesses_cons (l : HostLine) (ls : List HostLine) :
    hostAccesses (l :: ls) = l.expand.map .access ++ hostAccesses ls := by
  simp [hostAccesses]

/-! ### Host lines, as a program's run and its responses take them (30_encoding.md R87, R88)

Each lemma takes the program's first line; the state it leaves is outside reset again. -/

section Lines
variable {s : State} (h : s.rst = false) (ls : List HostLine)
include h

theorem after_line_wr {r : Reg} (hr : r ≠ .cmd) (v : Word) :
    after (hostAccesses (.wr r v :: ls)) s =
      after (hostAccesses ls) { s with regs := storeReg r v s.regs, pending := [], resp := some .done } :=
  after_wr hr v (hostAccesses ls) h

theorem after_line_rd (r : Reg) :
    after (hostAccesses (.rd r :: ls)) s =
      after (hostAccesses ls) { s with pending := [], resp := some (.data (readReg r s.regs)) } :=
  after_rd r (hostAccesses ls) h

theorem after_line_cmd (i : Instr) :
    after (hostAccesses (.cmd i :: ls)) s =
      after (hostAccesses ls)
        { s with regs := commandRegs i { s.regs with cmd := encode i }, pending := [], resp := some .done } :=
  after_cmd i (hostAccesses ls) h

theorem after_line_wr64Opa (v : DWord) :
    after (hostAccesses (.wr64Opa v :: ls)) s =
      after (hostAccesses ls) { s with regs := { s.regs with opa := v }, pending := [], resp := some .done } := by
  simp [hostAccesses_cons, HostLine.expand, after_wr, h, storeReg_opa_halves]

theorem after_line_wr64Opb (v : DWord) :
    after (hostAccesses (.wr64Opb v :: ls)) s =
      after (hostAccesses ls) { s with regs := { s.regs with opb := v }, pending := [], resp := some .done } := by
  simp [hostAccesses_cons, HostLine.expand, after_wr, h, storeReg_opb_halves]

theorem after_line_wrlens (la lb : BitVec 7) :
    after (hostAccesses (.wrlens (la.setWidth 32) (lb.setWidth 32) :: ls)) s =
      after (hostAccesses ls) { s with regs := { s.regs with la := la, lb := lb }, pending := [], resp := some .done } := by
  simp only [hostAccesses_cons, HostLine.expand, List.map_cons, List.map_nil, List.cons_append, List.nil_append,
    after_wr (r := .dlens) (by decide) _ _ h, storeReg_dlens_word]

theorem after_line_wrhex (cs : List Byte) :
    after (hostAccesses (.wrhex cs :: ls)) s =
      after (hostAccesses ls)
        { s with
          regs := { s.regs with hexIn := hostBuf cs, hexLen := BitVec.ofNat 8 (min cs.length 255) }
          pending := [], resp := some .done } := by
  simp [hostAccesses_cons, HostLine.expand, after_wr, h, storeReg_hex_words]

theorem after_line_rdhex :
    after (hostAccesses (.rdhex :: ls)) s =
      after (hostAccesses ls) { s with pending := [], resp := some (.data (readReg .hexOutLen s.regs)) } := by
  simp [hostAccesses_cons, HostLine.expand, after_rd, h]

theorem responses_line_wr {r : Reg} (hr : r ≠ .cmd) (v : Word) :
    responses (hostAccesses (.wr r v :: ls)) s = some .done ::
      responses (hostAccesses ls) { s with regs := storeReg r v s.regs, pending := [], resp := some .done } :=
  responses_wr hr v (hostAccesses ls) h

theorem responses_line_cmd (i : Instr) :
    responses (hostAccesses (.cmd i :: ls)) s = some .done ::
      responses (hostAccesses ls)
        { s with regs := commandRegs i { s.regs with cmd := encode i }, pending := [], resp := some .done } :=
  responses_cmd i (hostAccesses ls) h

theorem responses_line_wr64Opa (v : DWord) :
    responses (hostAccesses (.wr64Opa v :: ls)) s = some .done :: some .done ::
      responses (hostAccesses ls) { s with regs := { s.regs with opa := v }, pending := [], resp := some .done } := by
  simp [hostAccesses_cons, HostLine.expand, responses_wr, h, storeReg_opa_halves]

end Lines

/-! ### The host's read lines, and `floatToHex` and `hexToFloat` (30_encoding.md R88) -/

theorem hexOutString_enc64 (g : Regs) : (commandRegs .enc64 g).hexOutString = encString 16 g.opa :=
  hexOutString_of_encBuf (by decide) rfl rfl

theorem hexOutString_enc32 (g : Regs) : (commandRegs .enc32 g).hexOutString = encString 8 g.opa32 :=
  hexOutString_of_encBuf (by decide) rfl rfl

section Operations
variable {s : State} (h : s.rst = false)
include h

theorem responses_rdhex :
    responses (hostAccesses [.rdhex]) s =
      [some (.data (readReg .hexOut0 s.regs)), some (.data (readReg .hexOut1 s.regs)),
        some (.data (readReg .hexOut2 s.regs)), some (.data (readReg .hexOut3 s.regs)),
        some (.data (readReg .hexOutLen s.regs))] := by
  simp [hostAccesses, HostLine.expand, responses_rd, h, responses_nil]

theorem responses_rdfields :
    responses (hostAccesses [.rdfields]) s =
      [some (.data (readReg .fsign s.regs)), some (.data (readReg .fexp s.regs)),
        some (.data (readReg .fmantLo s.regs)), some (.data (readReg .fmantHi s.regs))] := by
  simp [hostAccesses, HostLine.expand, responses_rd, h, responses_nil]

/-- What `hexToFloat` reads after STATUS = OK: the halves of RES. -/
theorem responses_hexToFloatResult :
    responses (hostAccesses (hexToFloatResult 0x0000_0001)) s =
      [some (.data (loHalf s.regs.res)), some (.data (hiHalf s.regs.res))] := by
  have hok : hexToFloatResult 0x0000_0001 = [.rd .resLo, .rd .resHi] := by decide
  rw [hok]
  simp [hostAccesses, HostLine.expand, responses_rd, h, responses_nil, readReg]

/-- `floatToHex64` leaves x's string in HEXOUT. -/
theorem after_floatToHex64 (bits : DWord) : ∃ t, after (hostAccesses (floatToHex64 bits)) s = .next t ∧
    t.rst = false ∧ t.regs.hexOutString = encString 16 bits := by
  rw [floatToHex64, after_line_wr64Opa h, after_line_cmd (by exact h), after_line_rdhex (by exact h)]
  exact ⟨_, after_nil _, h, hexOutString_enc64 _⟩

/-- `floatToHex32`, likewise. -/
theorem after_floatToHex32 (bits : Word) : ∃ t, after (hostAccesses (floatToHex32 bits)) s = .next t ∧
    t.rst = false ∧ t.regs.hexOutString = encString 8 bits := by
  rw [floatToHex32, after_line_wr h _ (by decide), after_line_cmd (by exact h), after_line_rdhex (by exact h)]
  refine ⟨_, after_nil _, h, (hexOutString_enc32 _).trans ?_⟩
  exact congrArg (encString 8) (loHalf_withLo s.regs.opa bits)

/-- `hexToFloat64` of x's string leaves x's bits in RES and reads STATUS = OK. -/
theorem after_hexToFloat64 (bits : DWord) : ∃ u, after (hostAccesses (hexToFloat64 (encString 16 bits))) s = .next u ∧
    u.rst = false ∧ u.regs.res = bits ∧ u.resp = some (.data 0x0000_0001) := by
  have hlen : (BitVec.ofNat 8 (min (encString 16 bits).length 255)).toNat = 16 := by simp [encString]
  have hdec := dec64_of_encBuf (r := bits)
    (g := { s.regs with
      hexIn := encBuf 16 bits, hexLen := BitVec.ofNat 8 (min (encString 16 bits).length 255), cmd := encode .dec64 })
    rfl hlen
  rw [hexToFloat64, after_line_wrhex h, hostBuf_encString, after_line_cmd (by exact h), commandRegs, hdec,
    after_line_rd (by exact h), readReg_status_ok rfl]
  exact ⟨_, after_nil _, h, rfl, rfl⟩

/-- `hexToFloat32` of x's string leaves x's bits in RES, zero-extended, and reads STATUS = OK. -/
theorem after_hexToFloat32 (bits : Word) : ∃ u, after (hostAccesses (hexToFloat32 (encString 8 bits))) s = .next u ∧
    u.rst = false ∧ u.regs.res = bits.setWidth 64 ∧ u.resp = some (.data 0x0000_0001) := by
  have hlen : (BitVec.ofNat 8 (min (encString 8 bits).length 255)).toNat = 8 := by simp [encString]
  have hdec := dec32_of_encBuf (r := bits)
    (g := { s.regs with
      hexIn := encBuf 8 bits, hexLen := BitVec.ofNat 8 (min (encString 8 bits).length 255), cmd := encode .dec32 })
    rfl hlen
  rw [hexToFloat32, after_line_wrhex h, hostBuf_encString, after_line_cmd (by exact h), commandRegs, hdec,
    after_line_rd (by exact h), readReg_status_ok rfl]
  exact ⟨_, after_nil _, h, rfl, rfl⟩

end Operations

/-! ### The statements of 30_encoding.md -/

/-- Settles O12: the decoder and the encoder invert each other (`decode_eq_ok`), and a word that is 0 or above 0xB has a
bit of 31:4 set or a reserved OP. -/
theorem decodeMatchesExactlyTheTableWords : Obligations.DecodeMatchesExactlyTheTableWords := by
  unfold Obligations.DecodeMatchesExactlyTheTableWords
  refine ⟨decode_encode, fun w i => decode_eq_ok, fun i j hij => ?_, by decide, fun w hw => ?_⟩
  · have hj := decode_eq_ok.mpr hij
    rw [decode_encode] at hj
    exact Except.ok.inj hj
  · rw [exists_decode_error_iff]
    omega

/-- Settles O14: the decoder's two checks in numbers. -/
theorem decodeRefusesExactlyTheIllegalWords : Obligations.DecodeRefusesExactlyTheIllegalWords := by
  unfold Obligations.DecodeRefusesExactlyTheIllegalWords
  exact exists_decode_error_iff

/-- Settles O15: the decoder refuses the word, so the CMD write stores it and reports ILLEGAL_COMMAND. -/
theorem illegalCommandWordSetsStatusOnly : Obligations.IllegalCommandWordSetsStatusOnly := by
  unfold Obligations.IllegalCommandWordSetsStatusOnly
  intro s w rest hr hp hw
  obtain ⟨e, he⟩ := (exists_decode_error_iff w).mpr hw
  refine ⟨?_, by decide⟩
  rw [(step_access hr hp).trans (access_wr_cmd_eq w _), wordRegs_of_illegal he, ← hr]
  rfl

/-- Settles O55: line by line; `wrhex`'s buffer is the string's. -/
theorem hostPseudoInstructionsLoadOperands : Obligations.HostPseudoInstructionsLoadOperands := by
  unfold Obligations.HostPseudoInstructionsLoadOperands
  intro s h
  exact ⟨fun v => ⟨_, after_line_wr64Opa h [] v, rfl⟩, fun v => ⟨_, after_line_wr64Opb h [] v, rfl⟩,
    fun la lb => ⟨_, after_line_wrlens h [] la lb, rfl⟩,
    fun cs => ⟨_, hostBuf cs, after_line_wrhex h [] cs, rfl, fun k hk => charAt_hostBuf cs hk⟩⟩

/-- Settles O56: the string that `floatToHex` leaves passes DEC's check, and DEC gives the bits back. -/
theorem floatToHexThenHexToFloat : Obligations.FloatToHexThenHexToFloat := by
  unfold Obligations.FloatToHexThenHexToFloat
  refine ⟨fun s bits h => ?_, fun s bits h => ?_, fun st hst => if_neg hst⟩
  · obtain ⟨t, hrun, ht, hstr⟩ := after_floatToHex64 h bits
    obtain ⟨u, hrun', hu, hres, hresp⟩ := after_hexToFloat64 ht bits
    refine ⟨t, u, hrun, hstr, hstr ▸ hrun', hres, hresp, by decide, ?_⟩
    rw [responses_hexToFloatResult hu, hres]
    rfl
  · obtain ⟨t, hrun, ht, hstr⟩ := after_floatToHex32 h bits
    obtain ⟨u, hrun', hu, hres, hresp⟩ := after_hexToFloat32 ht bits
    refine ⟨t, u, hrun, hstr, hstr ▸ hrun', hres, hresp, ?_⟩
    rw [responses_hexToFloatResult hu, hres, loHalf_setWidth, hiHalf_setWidth]

/-- Settles O59: line by line; ENC64's words hold the string's characters, and EXT's fields are slices of the bits. -/
theorem hostReadLinesAnswer : Obligations.HostReadLinesAnswer := by
  unfold Obligations.HostReadLinesAnswer
  refine ⟨fun s h => ⟨responses_rdhex h, responses_rdfields h⟩, fun s bits h => ?_, fun s bits h => ?_,
    fun s bits h => ?_⟩
  · have hword : ∀ i j, i < 4 → j < 4 →
        (bufWord (encBuf 16 bits) i).extractLsb' (8 * j) 8 = encChar 16 bits (4 * i + j) := by
      intro i j hi hj
      rw [bufWord_byte _ i j hj, charAt_encBuf _ _ _ (by omega), if_pos (by omega)]
    refine ⟨bufWord (encBuf 16 bits) 0, bufWord (encBuf 16 bits) 1, bufWord (encBuf 16 bits) 2,
      bufWord (encBuf 16 bits) 3, ?_, fun j hj => ?_⟩
    · rw [floatToHex64, responses_line_wr64Opa h, responses_line_cmd (by exact h), responses_rdhex (by exact h),
        commandRegs, enc64_eq]
      rfl
    · exact ⟨by simpa using hword 0 j (by decide) hj, hword 1 j (by decide) hj, hword 2 j (by decide) hj,
        hword 3 j (by decide) hj⟩
  · obtain ⟨hsign, hexp, hlo, hhi⟩ := readReg_ext64 { s.regs with opa := bits, cmd := encode .ext64 }
    rw [fieldsOf64, responses_line_wr64Opa h, responses_line_cmd (by exact h), responses_rdfields (by exact h),
      hsign, hexp, hlo, hhi]
  · obtain ⟨hsign, hexp, hlo, hhi⟩ := readReg_ext32 { storeReg .opaLo bits s.regs with cmd := encode .ext32 }
    have hopa : Regs.opa32 { storeReg .opaLo bits s.regs with cmd := encode .ext32 } = bits := loHalf_withLo _ _
    rw [hopa] at hsign hexp hlo
    rw [fieldsOf32, responses_line_wr h _ (by decide), responses_line_cmd (by exact h), responses_rdfields (by exact h),
      hsign, hexp, hlo, hhi]

/-- Settles O13: the eleven words are the commands' encodings; the four others by evaluation. -/
theorem commandWordsDecode : Obligations.CommandWordsDecode := by
  unfold Obligations.CommandWordsDecode
  exact ⟨decode_encode .enc32, decode_encode .enc64, decode_encode .dec32, decode_encode .dec64, decode_encode .ext32,
    decode_encode .ext64, decode_encode .diff, decode_encode .cmp32, decode_encode .cmp64, decode_encode .rtv32,
    decode_encode .rtv64, by decide, by decide, by decide, by decide⟩

end Sys2Proof.Machine
end

section
/-! PROOFS of the statements of 40_codec.md. First the layers: DEC's check and its two ends; the characters ENC shows
and the digits DEC reads; the copy of HEXOUT to HEXIN as the host makes it; what a step can do to STATUS. Then the
statements. -/

namespace Sys2Proof.Machine

/-! ### DEC's check and its two ends (40_codec.md R106, R108–R110) -/

/-- What `exec` answers, from what the command does to the registers. -/
theorem exec_of_commandRegs {i : Instr} {s : State} {g : Regs} (h : commandRegs i s.regs = g) :
    exec i s = .next (s.setRegs g) :=
  h ▸ exec_eq i s

theorem checkHex_lenBad_iff {n : Nat} {len : BitVec 8} {buf : Vector Byte 16} :
    (checkHex n len buf).lenBad = true ↔ len.toNat ≠ n := by
  simp [checkHex]

theorem checkHex_charBad_eq_false_iff {n : Nat} {len : BitVec 8} {buf : Vector Byte 16} :
    (checkHex n len buf).charBad = false ↔ ∀ k, k < min len.toNat 16 → hexval (charAt buf k) ≠ none := by
  have hscan : (checkHex n len buf).charBad = false ↔ firstBadIndex len buf = none := by simp [checkHex]
  simp only [hscan, firstBadIndex_eq_none, Option.isSome_iff_ne_none]

theorem checkHex_charBad_iff {n : Nat} {len : BitVec 8} {buf : Vector Byte 16} :
    (checkHex n len buf).charBad = true ↔ ∃ k, k < min len.toNat 16 ∧ hexval (charAt buf k) = none := by
  rw [← Bool.not_eq_false, checkHex_charBad_eq_false_iff]
  simp only [ne_eq, not_forall, not_not, exists_prop]

/-- FIRST_BAD is the lowest bad index, which four bits hold (40_codec.md R106). -/
theorem checkHex_firstBad_of_lowest {n : Nat} {len : BitVec 8} {buf : Vector Byte 16} {m : Nat}
    (hm : m < min len.toNat 16) (hbad : hexval (charAt buf m) = none)
    (hlow : ∀ j, j < m → hexval (charAt buf j) ≠ none) : (checkHex n len buf).firstBad.toNat = m := by
  have hfirst : firstBadIndex len buf = some m :=
    firstBadIndex_eq_some.mpr ⟨hm, hbad, fun j hj => Option.isSome_iff_ne_none.mpr (hlow j hj)⟩
  rw [checkHex, hfirst, Option.getD_some, BitVec.toNat_ofNat]
  omega

/-- `valid_N`: the length is N and the N characters are hex digits (40_codec.md R106). -/
theorem checkHex_valid_iff {n : Nat} (hn : n ≤ 16) {len : BitVec 8} {buf : Vector Byte 16} :
    (checkHex n len buf).valid = true ↔ len.toNat = n ∧ ∀ k, k < n → hexval (charAt buf k) ≠ none := by
  rw [HexCheck.valid, Bool.and_eq_true, Bool.not_eq_true', Bool.not_eq_true', ← Bool.not_eq_true, checkHex_lenBad_iff,
    checkHex_charBad_eq_false_iff, not_not]
  refine and_congr_right fun hlen => ?_
  rw [hlen, Nat.min_eq_left hn]

/-- DEC with N hex digits writes RES and OK, nothing else (40_codec.md R108, R109). -/
theorem decode_of_digits {g : Regs} {n : Nat} (hn : n ≤ 16) (hlen : g.hexLen.toNat = n)
    (hchars : ∀ k, k < n → hexval (charAt g.hexIn k) ≠ none) (v : DWord) :
    g.decode n v = { g with res := v, status := 0x0000_0001 } :=
  decode_valid ((checkHex_valid_iff hn).mpr ⟨hlen, hchars⟩) v

/-- DEC of any other string writes STATUS with both causes, nothing else (40_codec.md R106, R108–R110). -/
theorem decode_of_bad_string {g : Regs} {n : Nat} {len : BitVec 8} (hn : n ≤ 16) (hlen : len.toNat = n)
    (hbad : g.hexLen ≠ len ∨ ∃ k, k < n ∧ hexval (charAt g.hexIn k) = none) (v : DWord) :
    ∃ st : Word, g.decode n v = { g with status := st } ∧
      st &&& 0xFFFF_F0C0 = 0 ∧ statusCode st = StatusCode.invalidEncoding.bits ∧
      (statusLenBad st = true ↔ g.hexLen ≠ len) ∧
      (statusCharBad st = true ↔ ∃ k, k < min g.hexLen.toNat 16 ∧ hexval (charAt g.hexIn k) = none) ∧
      (statusCharBad st = false → statusFirstBad st = 0) ∧
      ∀ m, m < min g.hexLen.toNat 16 → hexval (charAt g.hexIn m) = none →
        (∀ j, j < m → hexval (charAt g.hexIn j) ≠ none) → (statusFirstBad st).toNat = m := by
  have hne : g.hexLen ≠ len ↔ g.hexLen.toNat ≠ n := by rw [← hlen, ne_eq, ne_eq, BitVec.toNat_inj]
  have hinvalid : (checkHex n g.hexLen g.hexIn).valid = false := by
    rw [← Bool.not_eq_true, checkHex_valid_iff hn]
    rintro ⟨heq, hchars⟩
    obtain hwrong | ⟨k, hk, hnone⟩ := hbad
    · exact hne.mp hwrong heq
    · exact hchars k hk hnone
  refine ⟨_, decode_invalid hinvalid v, statusWord_reserved _ _ _ _, ?_⟩
  rw [statusCode_statusWord, statusLenBad_statusWord, statusCharBad_statusWord, statusFirstBad_statusWord, hne]
  exact ⟨rfl, checkHex_lenBad_iff, checkHex_charBad_iff, checkHex_firstBad, fun m => checkHex_firstBad_of_lowest⟩

/-! ### The characters that ENC shows and the digits that DEC reads (40_codec.md R102–R107) -/

/-- ENC64's character k is OPA's digit k from the top (40_codec.md R104). -/
theorem charAt_encBuf_dword (v : DWord) {k : Nat} (hk : k < 16) :
    charAt (encBuf 16 v) k = hexchar (v.extractLsb' (60 - 4 * k) 4) := by
  have hpos : 4 * (16 - 1 - k) = 60 - 4 * k := by omega
  rw [charAt_encBuf 16 v k hk, if_pos hk, encChar_eq, hpos]

/-- ENC32's character k is digit k of OPA's LO slot from the top (40_codec.md R103, 20_memory.md R53). -/
theorem charAt_encBuf_loHalf (v : DWord) {k : Nat} (hk : k < 8) :
    charAt (encBuf 8 (loHalf v)) k = hexchar (v.extractLsb' (28 - 4 * k) 4) := by
  have hpos : 4 * (8 - 1 - k) = 28 - 4 * k := by omega
  have hdigit : (loHalf v).extractLsb' (28 - 4 * k) 4 = v.extractLsb' (28 - 4 * k) 4 := by
    apply BitVec.eq_of_getLsbD_eq
    intro j hj
    have hlow : 28 - 4 * k + j < 32 := by omega
    simp only [BitVec.getLsbD_extractLsb', loHalf_getLsbD, hlow, decide_true, Bool.true_and]
  rw [charAt_encBuf 8 _ k (by omega), if_pos hk, encChar_eq, hpos, hdigit]

/-- Behind its N characters an encoded word has 0x00 (40_codec.md R103). -/
theorem charAt_encBuf_above {n w k : Nat} (r : BitVec w) (hn : n ≤ k) (hk : k < 16) : charAt (encBuf n r) k = 0 := by
  rw [charAt_encBuf n r k hk, if_neg (by omega)]

/-- A hex digit's value is the decoded word's digit at its place (40_codec.md R107). -/
theorem hexval_eq_decValue_digit {w n k p : Nat} {buf : Vector Byte 16} (hw : w = 4 * n) (hk : k < n)
    (hp : p = 4 * (n - 1 - k)) (h : hexval (charAt buf k) ≠ none) :
    hexval (charAt buf k) = some ((decValue w n buf).extractLsb' p 4) := by
  obtain ⟨v, hv⟩ := Option.ne_none_iff_exists'.mp h
  rw [hp, decValue_digit w n buf k hk hw, hexval0, hv, Option.getD_some]

/-- `dec_N` depends on the values of the first N characters alone (40_codec.md R107). -/
theorem decValue_congr {w n : Nat} {a b : Vector Byte 16}
    (h : ∀ k, k < n → hexval0 (charAt a k) = hexval0 (charAt b k)) : decValue w n a = decValue w n b := by
  refine List.foldl_ext _ _ _ fun acc k hk => ?_
  rw [h k (List.mem_range.mp hk)]

/-- Decoded and encoded again, a hex digit comes back in lower case (40_codec.md R113). -/
theorem charAt_encBuf_decValue {n k : Nat} {buf : Vector Byte 16} (hn : n ≤ 16) (hk : k < n)
    (h : hexval (charAt buf k) ≠ none) :
    charAt (encBuf n (decValue (4 * n) n buf)) k = lower (charAt buf k) := by
  rw [charAt_encBuf n _ k (by omega), if_pos hk, encChar_eq, decValue_digit (4 * n) n buf k hk rfl,
    hexchar_hexval0 _ (Option.isSome_iff_ne_none.mpr h)]

/-- Two hex digits that are equal in lower case have one value (40_codec.md R113). -/
theorem hexval0_eq_of_lower_eq {c d : Byte} (hc : hexval c ≠ none) (hd : hexval d ≠ none) (h : lower c = lower d) :
    hexval0 c = hexval0 d := by
  have hlc := hexchar_hexval0 c (Option.isSome_iff_ne_none.mpr hc)
  have hld := hexchar_hexval0 d (Option.isSome_iff_ne_none.mpr hd)
  rw [← hexval0_hexchar (hexval0 c), hlc, h, ← hld, hexval0_hexchar]

/-- Every character that `enc_N` gives is a hex digit (40_codec.md R111). -/
theorem hexval_encChar (n : Nat) {w : Nat} (r : BitVec w) (k : Nat) : hexval (encChar n r k) ≠ none :=
  Option.isSome_iff_ne_none.mp (hexval_hexchar_isSome _)

/-- RTV32's whole effect: ENC32's string and the word itself (40_codec.md R120, R122). -/
theorem rtv32_regs (g : Regs) : commandRegs .rtv32 g =
    { g with hexOut := encBuf 8 g.opa32, hexOutLen := 8, res := g.opa32.setWidth 64, status := 0x0000_0001 } := by
  rw [commandRegs, rtv32_eq, complete_eq, putRes_eq, putHexOut_eq]

/-- RTV64's whole effect, likewise (40_codec.md R121, R122). -/
theorem rtv64_regs (g : Regs) : commandRegs .rtv64 g =
    { g with hexOut := encBuf 16 g.opa, hexOutLen := 16, res := g.opa, status := 0x0000_0001 } := by
  rw [commandRegs, rtv64_eq, complete_eq, putRes_eq, putHexOut_eq, BitVec.setWidth_eq]

/-! ### The host's copy of HEXOUT to HEXIN (40_codec.md R111, R112) -/

/-- A buffer's four words, written one after another, leave nothing of the old buffer. -/
theorem setBufWord_bufWords (buf b : Vector Byte 16) :
    setBufWord (setBufWord (setBufWord (setBufWord buf 0 (bufWord b 0)) 1 (bufWord b 1)) 2 (bufWord b 2)) 3
      (bufWord b 3) = b := by
  refine buf_ext_words fun m hm => ?_
  simp only [bufWord_setBufWord _ _ m _ hm]
  interval_cases m <;> rfl

/-- The host program of R111 up to HEXOUT: the word's 16 characters stand there. -/
theorem after_opa_enc64 {s : State} (h : s.rst = false) (R : DWord) :
    ∃ t, after (hostAccesses [.wr64Opa R, .cmd .enc64]) s = .next t ∧ t.rst = false ∧
      t.regs.hexOut = encBuf 16 R := by
  rw [after_line_wr64Opa h, after_line_cmd (by exact h)]
  exact ⟨_, after_nil _, h, rfl⟩

/-- The same for binary32, with OPA_LO alone (log entry 17). -/
theorem after_opaLo_enc32 {s : State} (h : s.rst = false) (R : Word) :
    ∃ t, after (hostAccesses [.wr .opaLo R, .cmd .enc32]) s = .next t ∧ t.rst = false ∧
      t.regs.hexOut = encBuf 8 R := by
  rw [after_line_wr h _ (by decide), after_line_cmd (by exact h)]
  exact ⟨_, after_nil _, h, congrArg (encBuf 8) (loHalf_withLo s.regs.opa R)⟩

/-- The host program of R111 from HEXOUT on: the command runs with HEXOUT's characters in HEXIN and the length given. -/
theorem after_copyHexOut {s : State} (h : s.rst = false) (len : Word) (i : Instr) :
    after (hostAccesses [.wr .hexIn0 (readReg .hexOut0 s.regs), .wr .hexIn1 (readReg .hexOut1 s.regs),
        .wr .hexIn2 (readReg .hexOut2 s.regs), .wr .hexIn3 (readReg .hexOut3 s.regs), .wr .hexLen len, .cmd i]) s =
      .next
        { s with
          regs := commandRegs i
            { s.regs with hexIn := s.regs.hexOut, hexLen := len.extractLsb' 0 8, cmd := encode i }
          pending := [], resp := some .done } := by
  rw [after_line_wr h _ (by decide), after_line_wr (by exact h) _ (by decide), after_line_wr (by exact h) _ (by decide),
    after_line_wr (by exact h) _ (by decide), after_line_wr (by exact h) _ (by decide), after_line_cmd (by exact h)]
  simp only [storeReg, readReg, setBufWord_bufWords]
  rfl

/-! ### What a step can do to STATUS (40_codec.md R122, 10_state.md R28) -/

/-- An access keeps STATUS, or runs a command or reports an illegal word: CODE is then 1–4. -/
theorem accessRegs_status (q : Request) (g : Regs) :
    (accessRegs q g).status = g.status ∨ statusCode (accessRegs q g).status ≤ 4 := by
  unfold accessRegs
  split
  · split
    case isTrue =>
      obtain ⟨-, hcode⟩ := wordRegs_statusCode q.wdata g
      exact .inr hcode
    case isFalse hcmd =>
      obtain ⟨opa, opb, la, lb, len, buf, heq⟩ := storeSlot_cases hcmd q.wdata g
      exact .inl (by rw [heq])
  · exact .inl rfl

/-- All that an event can do to the registers: keep them, reset them, or what an access does. -/
theorem handled_regs (e : Event) (s : State) :
    (handled e s).regs = s.regs ∨ (handled e s).regs = Regs.reset ∨ ∃ q, (handled e s).regs = accessRegs q s.regs := by
  cases e with
  | access q =>
    cases hr : s.rst with
    | true => exact .inr (.inl (by simp [handled, hr]))
    | false => exact .inr (.inr ⟨q, by rw [handled_access q hr]; rfl⟩)
  | rstRise u => exact .inr (.inl rfl)
  | rstFall =>
    cases hr : s.rst with
    | true => exact .inr (.inl (by simp [handled, hr]))
    | false => exact .inl (by simp [handled, hr])

/-- All that a step can do to the registers: the same, since an idle machine keeps or resets them. -/
theorem step_regs {s t : State} (h : step s = .next t) :
    t.regs = s.regs ∨ t.regs = Regs.reset ∨ ∃ q, t.regs = accessRegs q s.regs := by
  cases hp : s.pending with
  | nil =>
    rw [step_nil hp] at h
    cases hr : s.rst <;> simp only [idle, hr, if_true, Bool.false_eq_true, if_false] at h <;> cases h
    · exact .inl rfl
    · exact .inr (.inl rfl)
  | cons e rest =>
    rw [step_cons hp, handle_eq] at h
    cases h
    exact handled_regs e { s with pending := rest }

/-! ### The statements of 40_codec.md -/

/-- Settles O21: DEC's two ends at N = 8; the word found is `dec_8`. -/
theorem decodeBinary32 : Obligations.DecodeBinary32 := by
  unfold Obligations.DecodeBinary32
  refine ⟨decode_encode .dec32, fun s => ⟨fun hlen hchars => ⟨decValue 32 8 s.regs.hexIn, ?_, fun k hk => ?_⟩,
    fun hbad => ?_⟩⟩
  · exact exec_of_commandRegs (decode_of_digits (n := 8) (by decide) (congrArg BitVec.toNat hlen) hchars _)
  · exact hexval_eq_decValue_digit (n := 8) rfl hk (by omega) (hchars k hk)
  · obtain ⟨st, heq, hst⟩ := decode_of_bad_string (n := 8) (by decide) rfl hbad _
    exact ⟨st, exec_of_commandRegs heq, hst⟩

/-- Settles O22: DEC's two ends at N = 16; the word found is `dec_16`. -/
theorem decodeBinary64 : Obligations.DecodeBinary64 := by
  unfold Obligations.DecodeBinary64
  refine ⟨decode_encode .dec64, fun s => ⟨fun hlen hchars => ⟨decValue 64 16 s.regs.hexIn, ?_, fun k hk => ?_⟩,
    fun hbad => ?_⟩⟩
  · exact exec_of_commandRegs (decode_of_digits (n := 16) (by decide) (congrArg BitVec.toNat hlen) hchars _)
  · exact hexval_eq_decValue_digit (n := 16) rfl hk (by omega) (hchars k hk)
  · obtain ⟨st, heq, hst⟩ := decode_of_bad_string (n := 16) (by decide) rfl hbad _
    exact ⟨st, exec_of_commandRegs heq, hst⟩

/-- Settles O23: ENC64 leaves `enc_16(R)` in HEXOUT, the copy puts it in HEXIN, and DEC64 undoes it. -/
theorem roundTripBinary64 : Obligations.RoundTripBinary64 := by
  unfold Obligations.RoundTripBinary64
  refine ⟨fun R => ⟨fun k _ => hexval_encChar 16 R k, decValue_encBuf (n := 16) rfl (by decide) R⟩, fun s R h => ?_⟩
  obtain ⟨t, hrun, ht, hbuf⟩ := after_opa_enc64 h R
  refine ⟨t, _, hrun, after_copyHexOut ht 16 .dec64, ?_⟩
  rw [commandRegs, dec64_of_encBuf hbuf rfl]
  exact ⟨rfl, rfl⟩

/-- Settles O24: the same with OPA_LO, ENC32 and DEC32. -/
theorem roundTripBinary32 : Obligations.RoundTripBinary32 := by
  unfold Obligations.RoundTripBinary32
  refine ⟨fun R => ⟨fun k _ => hexval_encChar 8 R k, decValue_encBuf (n := 8) rfl (by decide) R⟩, fun s R h => ?_⟩
  obtain ⟨t, hrun, ht, hbuf⟩ := after_opaLo_enc32 h R
  refine ⟨t, _, hrun, after_copyHexOut ht 8 .dec32, ?_⟩
  rw [commandRegs, dec32_of_encBuf hbuf rfl]
  exact ⟨rfl, rfl⟩

/-- Settles O25: encoding what was decoded gives the string in lower case, so equal words give equal lower-case strings;
and equal lower-case characters have equal values. -/
theorem decodeThenEncodeIsLowerCase : Obligations.DecodeThenEncodeIsLowerCase := by
  unfold Obligations.DecodeThenEncodeIsLowerCase
  intro n hn a ha
  have hn16 : n ≤ 16 := by omega
  refine ⟨fun k hk => charAt_encBuf_decValue hn16 hk (ha k hk), fun b hb => ⟨fun heq k hk => ?_, fun heq => ?_⟩⟩
  · rw [← charAt_encBuf_decValue hn16 hk (ha k hk), heq, charAt_encBuf_decValue hn16 hk (hb k hk)]
  · exact decValue_congr fun k hk => hexval0_eq_of_lower_eq (ha k hk) (hb k hk) (heq k hk)

/-- Settles O26: RTV32's comparison never fails, so it ends as ENC32's string with RES and OK. -/
theorem roundTripSelfCheckBinary32 : Obligations.RoundTripSelfCheckBinary32 := by
  unfold Obligations.RoundTripSelfCheckBinary32
  refine ⟨decode_encode .rtv32, fun s => ⟨encBuf 8 s.regs.opa32, ?_, fun k hk => ?_, fun k hn hk => ?_⟩⟩
  · exact exec_of_commandRegs (rtv32_regs s.regs)
  · exact charAt_encBuf_loHalf s.regs.opa hk
  · exact charAt_encBuf_above _ hn hk

/-- Settles O27: RTV64's comparison never fails, so it ends as ENC64's string with RES and OK. -/
theorem roundTripSelfCheckBinary64 : Obligations.RoundTripSelfCheckBinary64 := by
  unfold Obligations.RoundTripSelfCheckBinary64
  refine ⟨decode_encode .rtv64, fun s => ⟨encBuf 16 s.regs.opa, ?_, fun k hk => charAt_encBuf_dword s.regs.opa hk⟩⟩
  exact exec_of_commandRegs (rtv64_regs s.regs)

/-- Settles O28: a step that changes STATUS leaves CODE at 4 or below. -/
theorem noStepReportsRoundtripMismatch : Obligations.NoStepReportsRoundtripMismatch := by
  unfold Obligations.NoStepReportsRoundtripMismatch
  intro s t h hcode
  obtain heq | heq | ⟨q, heq⟩ := step_regs h <;> rw [heq] at hcode ⊢
  · exact absurd hcode (by decide)
  · refine (accessRegs_status q s.regs).resolve_right fun hle => ?_
    bv_omega

/-- Settles O18: over the 16 digits and, for the values, range by range of the character codes. -/
theorem hexDigitsAndTheirCharacters : Obligations.HexDigitsAndTheirCharacters := by
  unfold Obligations.HexDigitsAndTheirCharacters
  refine ⟨by decide, fun c v => ?_, by decide⟩
  simp only [hexval, Config.acceptUppercase, true_and]
  split_ifs
  case neg => simp only [false_iff]; bv_omega
  all_goals rw [Option.some_inj]; bv_omega

/-- Settles O19: ENC32 leaves `enc_8` of OPA's LO slot in HEXOUT. -/
theorem encodeBinary32 : Obligations.EncodeBinary32 := by
  unfold Obligations.EncodeBinary32
  refine ⟨decode_encode .enc32, fun s => ⟨encBuf 8 s.regs.opa32, exec_of_commandRegs (enc32_eq s.regs), fun k hk => ?_,
    fun k hn hk => ?_⟩⟩
  · exact charAt_encBuf_loHalf s.regs.opa hk
  · exact charAt_encBuf_above _ hn hk

/-- Settles O20: ENC64 leaves `enc_16` of OPA in HEXOUT. -/
theorem encodeBinary64 : Obligations.EncodeBinary64 := by
  unfold Obligations.EncodeBinary64
  exact ⟨decode_encode .enc64, fun s => ⟨encBuf 16 s.regs.opa, exec_of_commandRegs (enc64_eq s.regs),
    fun k hk => charAt_encBuf_dword s.regs.opa hk⟩⟩

end Sys2Proof.Machine
end

section
/-! PROOFS of the statements of 41_extract.md. First the layers: a field's mask and its slice, and the slices put back
together; the strings that `render_bin` gives; the FieldTriple's strings joined. Then the statements. -/

namespace Sys2Proof.Machine

/-! ### Masks, slices and the operand (41_extract.md R140, R145) -/

/-- A masked field, however its mask is written, is the slice, zero-extended (41_extract.md R140). -/
theorem eq_slice_of_maskedField_eq {w shift width : Nat} {r x : BitVec w} (hx : maskedField r shift width = x)
    (h : width ≤ w) : x = (r.extractLsb' shift width).setWidth w := by
  rw [← hx, ← maskedField_setWidth r h w, BitVec.setWidth_eq]

/-- At shift 0 the mask alone gives the field. -/
theorem maskedField_zero {w : Nat} (r : BitVec w) (width : Nat) :
    maskedField r 0 width = r &&& BitVec.ofNat w (2 ^ width - 1) := by
  rw [maskedField, BitVec.ushiftRight_zero]

/-- A slice of the binary32 operand is that slice of OPA (10_state.md R29). -/
theorem opa32_slice (g : Regs) {start len : Nat} (h : start + len ≤ 32) :
    g.opa32.extractLsb' start len = g.opa.extractLsb' start len :=
  BitVec.extractLsb'_extractLsb'_of_le h

/-- EXT32's whole effect, in the slices of OPA itself (41_extract.md R141). -/
theorem ext32_eq_opa_slices (g : Regs) : g.ext32 =
    { g with
      fsign := g.opa.extractLsb' 31 1, fexp := (g.opa.extractLsb' 23 8).setWidth 11,
      fmant := (g.opa.extractLsb' 0 23).setWidth 52, status := 0x0000_0001 } := by
  rw [ext32_eq, opa32_slice g (by decide), opa32_slice g (by decide), opa32_slice g (by decide)]

/-- Three adjoining slices that cover a word are the word (41_extract.md R145). -/
theorem slices_append {m n k : Nat} (v : BitVec (m + n + k)) :
    v.extractLsb' (n + k) m ++ v.extractLsb' k n ++ v.extractLsb' 0 k = v := by
  rw [BitVec.extractLsb'_append_extractLsb'_eq_extractLsb' (Nat.add_comm n k),
    BitVec.extractLsb'_append_extractLsb'_eq_extractLsb' (Nat.zero_add k).symm, BitVec.extractLsb'_eq_self]

/-- The fields that EXT64 leaves, put back together, are OPA (41_extract.md R145). -/
theorem ext64_fields_append (g : Regs) : g.ext64.fsign ++ g.ext64.fexp ++ g.ext64.fmant = g.opa := by
  rw [ext64_eq]
  exact slices_append (m := 1) (n := 11) (k := 52) g.opa

/-- The fields that EXT32 leaves, at binary32's widths, put back together are OPA_LO (41_extract.md R145). -/
theorem ext32_fields_append (g : Regs) :
    g.ext32.fsign ++ g.ext32.fexp.extractLsb' 0 8 ++ g.ext32.fmant.extractLsb' 0 23 = g.opa32 := by
  rw [ext32_eq]
  simp only [BitVec.extractLsb'_setWidth_of_le, Nat.zero_add, Nat.reduceLeDiff, BitVec.extractLsb'_eq_self]
  exact slices_append (m := 1) (n := 8) (k := 23) g.opa32

/-! ### `render_bin` (00_scope.md R13) -/

@[simp] theorem length_renderBin {w : Nat} (v : BitVec w) : (renderBin v).length = w := by
  simp [renderBin]

theorem getElem?_renderBin {w i : Nat} (v : BitVec w) (hi : i < w) :
    (renderBin v)[i]? = some (if v.getLsbD (w - 1 - i) then 0x31 else 0x30) := by
  rw [renderBin, List.getElem?_map, List.getElem?_range hi, Option.map_some]

theorem eq_of_mem_renderBin {w : Nat} {v : BitVec w} {c : Byte} (h : c ∈ renderBin v) : c = 0x30 ∨ c = 0x31 := by
  obtain ⟨i, -, rfl⟩ := List.mem_map.mp h
  split
  · exact .inr rfl
  · exact .inl rfl

/-- The string of joined words is their strings joined. -/
theorem renderBin_append {m n : Nat} (a : BitVec m) (b : BitVec n) :
    renderBin (a ++ b) = renderBin a ++ renderBin b := by
  have hhigh : ∀ i < m, (a ++ b).getLsbD (m + n - 1 - i) = a.getLsbD (m - 1 - i) := fun i hi => by
    have hpos : m + n - 1 - i - n = m - 1 - i := by omega
    rw [BitVec.getLsbD_append, if_neg (by omega), hpos]
  have hlow : ∀ i < n, (a ++ b).getLsbD (m + n - 1 - (m + i)) = b.getLsbD (n - 1 - i) := fun i hi => by
    have hpos : m + n - 1 - (m + i) = n - 1 - i := by omega
    rw [BitVec.getLsbD_append, hpos, if_pos (by omega)]
  rw [renderBin, List.range_add, List.map_append, List.map_map]
  refine congrArg₂ (· ++ ·) (List.map_congr_left fun i hi => ?_) (List.map_congr_left fun i hi => ?_)
  · rw [hhigh i (List.mem_range.mp hi)]
  · rw [Function.comp_apply, hlow i (List.mem_range.mp hi)]

/-! ### The FieldTriple's strings joined (41_extract.md R143) -/

/-- After EXT64 the three strings spell OPA. -/
theorem fieldTriple64_ext64_append (g : Regs) :
    g.ext64.fieldTriple64.sign ++ g.ext64.fieldTriple64.exponent ++ g.ext64.fieldTriple64.mantissa =
      renderBin g.opa := by
  rw [← ext64_fields_append g, renderBin_append, renderBin_append]
  rfl

/-- After EXT32 the three strings spell OPA_LO. -/
theorem fieldTriple32_ext32_append (g : Regs) :
    g.ext32.fieldTriple32.sign ++ g.ext32.fieldTriple32.exponent ++ g.ext32.fieldTriple32.mantissa =
      renderBin g.opa32 := by
  rw [← ext32_fields_append g, renderBin_append, renderBin_append]
  rfl

/-- Character i of OPA_LO's string is OPA's bit 31 - i. -/
theorem getElem?_renderBin_opa32 (g : Regs) {i : Nat} (hi : i < 32) :
    (renderBin g.opa32)[i]? = some (if g.opa.getLsbD (31 - i) then 0x31 else 0x30) := by
  have hlow : 31 - i < 32 := by omega
  rw [getElem?_renderBin g.opa32 hi, Regs.opa32, loHalf_getLsbD, decide_eq_true hlow, Bool.true_and]

/-! ### The statements of 41_extract.md -/

/-- Settles O32: the fields are adjoining slices that cover the operand. -/
theorem extractLosesNoBit : Obligations.ExtractLosesNoBit := by
  unfold Obligations.ExtractLosesNoBit
  exact fun s => ⟨⟨_, exec_eq .ext64 s, ext64_fields_append s.regs⟩, ⟨_, exec_eq .ext32 s, ext32_fields_append s.regs⟩⟩

/-- Settles O33: each string has its field's width, and the three joined are the operand's own string. -/
theorem fieldStringsHaveFixedWidths : Obligations.FieldStringsHaveFixedWidths := by
  unfold Obligations.FieldStringsHaveFixedWidths
  intro s
  refine ⟨⟨_, exec_eq .ext64 s, length_renderBin _, length_renderBin _, length_renderBin _, ?_⟩,
    ⟨_, exec_eq .ext32 s, length_renderBin _, length_renderBin _, length_renderBin _, ?_⟩⟩
  · simp only [setRegs_regs, commandRegs, fieldTriple64_ext64_append]
    exact ⟨fun c => eq_of_mem_renderBin, fun i hi => getElem?_renderBin s.regs.opa hi⟩
  · simp only [setRegs_regs, commandRegs, fieldTriple32_ext32_append]
    exact ⟨fun c => eq_of_mem_renderBin, fun i hi => getElem?_renderBin_opa32 s.regs hi⟩

/-- Settles O34: `dec_16` of `enc_16` is OPA itself, and EXT64 leaves its slices. -/
theorem legacyRouteGivesTheSameFields : Obligations.LegacyRouteGivesTheSameFields := by
  unfold Obligations.LegacyRouteGivesTheSameFields
  intro s
  rw [decValue_encBuf (n := 16) rfl (by decide)]
  exact ⟨_, exec_of_commandRegs (ext64_eq s.regs), rfl, rfl, rfl⟩

/-- Settles O29: each row of the table is a `maskedField`, and that is the slice. -/
theorem fieldMasksAreSlices : Obligations.FieldMasksAreSlices := by
  unfold Obligations.FieldMasksAreSlices
  refine ⟨fun R => ?_, fun R => ?_⟩
  · have hsign : maskedField R 63 1 = (R >>> 63) &&& 0x1 := rfl
    have hexp : maskedField R 52 11 = (R >>> 52) &&& 0x7FF := rfl
    have hmant : maskedField R 0 52 = R &&& 0x000F_FFFF_FFFF_FFFF := maskedField_zero R 52
    exact ⟨eq_slice_of_maskedField_eq hsign (by decide), eq_slice_of_maskedField_eq hexp (by decide),
      eq_slice_of_maskedField_eq hmant (by decide), hsign, hexp, hmant⟩
  · have hsign : maskedField R 31 1 = (R >>> 31) &&& 0x1 := rfl
    have hexp : maskedField R 23 8 = (R >>> 23) &&& 0xFF := rfl
    have hmant : maskedField R 0 23 = R &&& 0x007F_FFFF := maskedField_zero R 23
    exact ⟨eq_slice_of_maskedField_eq hsign (by decide), eq_slice_of_maskedField_eq hexp (by decide),
      eq_slice_of_maskedField_eq hmant (by decide), hsign, hexp, hmant⟩

/-- Settles O30: EXT32's slices of OPA_LO are OPA's. -/
theorem extractBinary32 : Obligations.ExtractBinary32 := by
  unfold Obligations.ExtractBinary32
  exact ⟨decode_encode .ext32, fun s => exec_of_commandRegs (ext32_eq_opa_slices s.regs)⟩

/-- Settles O31: EXT64 leaves the three slices of OPA. -/
theorem extractBinary64 : Obligations.ExtractBinary64 := by
  unfold Obligations.ExtractBinary64
  exact ⟨decode_encode .ext64, fun s => exec_of_commandRegs (ext64_eq s.regs)⟩

end Sys2Proof.Machine
end

section
/-! PROOFS of the statements of 42_diff.md. First the layers: DIFF's mask, character by character and at equal lengths;
the source's diff as the diff string of a mask; the slices that EXT and CMP show. Then the statements. -/

namespace Sys2Proof.Machine

/-! ### DIFF's mask (42_diff.md R160) -/

/-- Character i of the mask, from the left, is the mismatch of the two strings' characters i. -/
theorem diffMask_character (a b : DWord) (la lb : Nat) {n i : Nat} (hn : n ≤ 64) (hi : i < n) :
    (diffMask a b la lb n).getLsbD (n - 1 - i) = (a.getLsbD (la - 1 - i) ^^ b.getLsbD (lb - 1 - i)) := by
  have hlt : n - 1 - i < n := by omega
  have hpos : n - 1 - (n - 1 - i) = i := by omega
  rw [diffMask_getLsbD a b la lb n _ hn, decide_eq_true hlt, hpos, Bool.true_and]

theorem diffMask_above (a b : DWord) (la lb : Nat) {n j : Nat} (hn : n ≤ 64) (hj : n ≤ j) :
    (diffMask a b la lb n).getLsbD j = false := by
  rw [diffMask_getLsbD a b la lb n j hn, decide_eq_false (Nat.not_lt.mpr hj), Bool.false_and]

/-- Strings of one length have their characters at the same bits of both operands. -/
theorem diffMask_equal_lengths (a b : DWord) {n : Nat} (hn : n ≤ 64) :
    diffMask a b n n n = maskedField (a ^^^ b) 0 n := by
  apply BitVec.eq_of_getLsbD_eq
  intro j hj
  rw [diffMask_getLsbD a b n n n j hn, maskedField_getLsbD, BitVec.getLsbD_xor, Nat.zero_add, decide_eq_true hj]
  by_cases hjn : j < n
  · have hpos : n - 1 - (n - 1 - j) = j := by omega
    simp [hjn, hpos]
  · simp [hjn]

theorem diff_legal_of_le {g : Regs} (hla : g.la.toNat ≤ 64) (hlb : g.lb.toNat ≤ 64) :
    g.diff =
      { g with
        dmask := diffMask g.opa g.opb g.la.toNat g.lb.toNat (min g.la.toNat g.lb.toNat),
        dlen := BitVec.ofNat 7 (min g.la.toNat g.lb.toNat), status := 0x0000_0001 } :=
  diff_legal (by omega)

/-- DIFF's whole effect at equal lengths (42_diff.md R160). -/
theorem diff_equal_lengths {g : Regs} {n : Nat} (hla : g.la.toNat = n) (hlb : g.lb.toNat = n) (hn : n ≤ 64) :
    g.diff =
      { g with
        dmask := maskedField (g.opa ^^^ g.opb) 0 n, dlen := BitVec.ofNat 7 n, status := 0x0000_0001 } := by
  rw [diff_legal_of_le (hla.trans_le hn) (hlb.trans_le hn), hla, hlb, Nat.min_self, diffMask_equal_lengths _ _ hn]

/-- With all 64 characters, DIFF's field is the whole exclusive or (42_diff.md R165). -/
theorem diff_eq_cmp64 {g : Regs} (hla : g.la.toNat = 64) (hlb : g.lb.toNat = 64) : g.diff = g.cmp64 := by
  have hmask := eq_slice_of_maskedField_eq (r := g.opa ^^^ g.opb) (shift := 0) (width := 64) rfl (by decide)
  rw [BitVec.extractLsb'_eq_self, BitVec.setWidth_eq] at hmask
  rw [diff_equal_lengths hla hlb (by decide), hmask, cmp64_eq]
  rfl

/-- With 32 characters, DIFF's field is the exclusive or of the low halves, zero-extended (42_diff.md R165). -/
theorem diff_eq_cmp32 {g : Regs} (hla : g.la.toNat = 32) (hlb : g.lb.toNat = 32) : g.diff = g.cmp32 := by
  have hmask := eq_slice_of_maskedField_eq (r := g.opa ^^^ g.opb) (shift := 0) (width := 32) rfl (by decide)
  rw [BitVec.extractLsb'_xor] at hmask
  rw [diff_equal_lengths hla hlb (by decide), hmask, cmp32_eq]
  rfl

/-! ### The source's diff of rendered words (42_diff.md R161) -/

theorem length_renderDiff {w : Nat} (n : Nat) (m : BitVec w) : (renderDiff n m).length = n := by
  simp [renderDiff]

/-- A mask that holds the strings' mismatches, character by character, shows their diff. -/
theorem renderDiff_eq_sourceDiff {w la lb : Nat} {m : BitVec w} {a : BitVec la} {b : BitVec lb}
    (h : ∀ i < min la lb, m.getLsbD (min la lb - 1 - i) = (a.getLsbD (la - 1 - i) ^^ b.getLsbD (lb - 1 - i))) :
    renderDiff (min la lb) m = sourceDiff (renderBin a) (renderBin b) := by
  apply List.ext_getElem
  · rw [length_renderDiff, sourceDiff, List.length_zipWith, length_renderBin, length_renderBin]
  · intro i hi _
    rw [length_renderDiff] at hi
    simp only [renderDiff, sourceDiff, renderBin, List.getElem_map, List.getElem_range, List.getElem_zipWith, h i hi]
    cases a.getLsbD (la - 1 - i) <;> cases b.getLsbD (lb - 1 - i) <;> rfl

/-- At one width the diff is the exclusive or, shown. -/
theorem renderDiff_xor {w : Nat} (a b : BitVec w) :
    renderDiff w (a ^^^ b) = sourceDiff (renderBin a) (renderBin b) := by
  have h := renderDiff_eq_sourceDiff (m := a ^^^ b) (a := a) (b := b) fun i _ => by
    rw [Nat.min_self, BitVec.getLsbD_xor]
  rwa [Nat.min_self] at h

/-- DIFF of right-aligned strings shows the source's diff. -/
theorem diffString_diff {g : Regs} (hla : g.la.toNat ≤ 64) (hlb : g.lb.toNat ≤ 64) :
    g.diff.diffString =
      sourceDiff (renderBin (g.opa.setWidth g.la.toNat)) (renderBin (g.opb.setWidth g.lb.toNat)) := by
  have hn : min g.la.toNat g.lb.toNat ≤ 64 := (Nat.min_le_left _ _).trans hla
  rw [diff_legal_of_le hla hlb, Regs.diffString, BitVec.toNat_ofNat, Nat.mod_eq_of_lt (by omega)]
  refine renderDiff_eq_sourceDiff fun i hi => ?_
  have hia : g.la.toNat - 1 - i < g.la.toNat := by omega
  have hib : g.lb.toNat - 1 - i < g.lb.toNat := by omega
  rw [diffMask_character _ _ _ _ hn hi, BitVec.getLsbD_setWidth, BitVec.getLsbD_setWidth, decide_eq_true hia,
    decide_eq_true hib, Bool.true_and, Bool.true_and]

theorem length_sourceDiff (a b : List Byte) : (sourceDiff a b).length = min a.length b.length :=
  List.length_zipWith

/-! ### What EXT and CMP show of their slices (42_diff.md R164) -/

theorem fieldTriple64_ext64 (g : Regs) : g.ext64.fieldTriple64 =
    ⟨renderBin (g.opa.extractLsb' 63 1), renderBin (g.opa.extractLsb' 52 11),
      renderBin (g.opa.extractLsb' 0 52)⟩ := by
  rw [ext64_eq]
  rfl

theorem fieldTriple32_ext32 (g : Regs) : g.ext32.fieldTriple32 =
    ⟨renderBin (g.opa32.extractLsb' 31 1), renderBin (g.opa32.extractLsb' 23 8),
      renderBin (g.opa32.extractLsb' 0 23)⟩ := by
  rw [ext32_eq, Regs.fieldTriple32, BitVec.extractLsb'_setWidth_of_le (by decide),
    BitVec.extractLsb'_setWidth_of_le (by decide), BitVec.extractLsb'_eq_self, BitVec.extractLsb'_eq_self]

/-- The diff string of a slice of an exclusive or is the diff of the two words' slices. -/
theorem renderDiff_slice_xor {w : Nat} (a b : BitVec w) (start len : Nat) :
    renderDiff len ((a ^^^ b).extractLsb' start len) =
      sourceDiff (renderBin (a.extractLsb' start len)) (renderBin (b.extractLsb' start len)) := by
  rw [BitVec.extractLsb'_xor, renderDiff_xor]

theorem fieldDiffs64_cmp64 (g : Regs) : g.cmp64.fieldDiffs64 =
    ⟨sourceDiff (renderBin (g.opa.extractLsb' 63 1)) (renderBin (g.opb.extractLsb' 63 1)),
      sourceDiff (renderBin (g.opa.extractLsb' 52 11)) (renderBin (g.opb.extractLsb' 52 11)),
      sourceDiff (renderBin (g.opa.extractLsb' 0 52)) (renderBin (g.opb.extractLsb' 0 52))⟩ := by
  simp only [cmp64_eq, Regs.fieldDiffs64, renderDiff_slice_xor]

theorem fieldDiffs32_cmp32 (g : Regs) : g.cmp32.fieldDiffs32 =
    ⟨sourceDiff (renderBin (g.opa32.extractLsb' 31 1)) (renderBin (g.opb32.extractLsb' 31 1)),
      sourceDiff (renderBin (g.opa32.extractLsb' 23 8)) (renderBin (g.opb32.extractLsb' 23 8)),
      sourceDiff (renderBin (g.opa32.extractLsb' 0 23)) (renderBin (g.opb32.extractLsb' 0 23))⟩ := by
  rw [cmp32_eq, Regs.fieldDiffs32, BitVec.extractLsb'_setWidth_of_le (by decide),
    BitVec.extractLsb'_setWidth_of_le (by decide), BitVec.extractLsb'_setWidth_of_le (by decide),
    renderDiff_slice_xor, renderDiff_slice_xor, renderDiff_slice_xor]

/-! ### The statements of 42_diff.md -/

/-- Settles O35: the mask holds the mismatches of the first n characters, and the check refuses a length above 64. -/
theorem diffComparesFromTheLeft : Obligations.DiffComparesFromTheLeft := by
  unfold Obligations.DiffComparesFromTheLeft
  refine ⟨decode_encode .diff, fun s => ⟨fun hla hlb => ?_, fun h => exec_of_commandRegs (diff_illegal h),
    by decide, by decide⟩⟩
  have hn : min s.regs.la.toNat s.regs.lb.toNat ≤ 64 := (Nat.min_le_left _ _).trans hla
  exact ⟨_, exec_of_commandRegs (diff_legal_of_le hla hlb), fun i hi => diffMask_character _ _ _ _ hn hi,
    fun j hj => diffMask_above _ _ _ _ hn hj⟩

/-- Settles O36: at equal lengths the mask is a masked field at shift 0, and no character is compared at length 0. -/
theorem diffOfEqualLengthsIsMaskedXor : Obligations.DiffOfEqualLengthsIsMaskedXor := by
  unfold Obligations.DiffOfEqualLengthsIsMaskedXor
  refine ⟨fun s hlen hla => ?_, fun s hla hlb hzero => ?_⟩
  · have hlb : s.regs.lb.toNat = s.regs.la.toNat := hlen ▸ rfl
    exact ⟨_, exec_of_commandRegs (diff_equal_lengths rfl hlb hla), by simp, maskedField_zero _ _⟩
  · have hn : min s.regs.la.toNat s.regs.lb.toNat = 0 := by
      obtain h | h := hzero <;> simp [h]
    have hdiff := diff_legal_of_le hla hlb
    rw [hn] at hdiff
    exact ⟨_, exec_of_commandRegs hdiff, rfl, rfl, rfl⟩

/-- Settles O37: LA and LB are the strings' lengths, so DIFF shows the diff of the strings that the operands hold. -/
theorem diffRendersTheSourceDiff : Obligations.DiffRendersTheSourceDiff := by
  unfold Obligations.DiffRendersTheSourceDiff
  intro s a b ha hb hopa hopb hla hlb
  have hlaNat : s.regs.la.toNat = a.length := by rw [hla, BitVec.toNat_ofNat, Nat.mod_eq_of_lt (by omega)]
  have hlbNat : s.regs.lb.toNat = b.length := by rw [hlb, BitVec.toNat_ofNat, Nat.mod_eq_of_lt (by omega)]
  have hstring : s.regs.diff.diffString = sourceDiff a b := by
    rw [diffString_diff (by omega) (by omega), hlaNat, hlbNat, hopa, hopb]
  exact ⟨_, exec_eq .diff s, hstring, hstring ▸ length_sourceDiff a b⟩

/-- Settles O40: each slice of the exclusive or shows the diff of the operands' slices, which are EXT's fields. -/
theorem compareGivesPerFieldDiffs : Obligations.CompareGivesPerFieldDiffs := by
  unfold Obligations.CompareGivesPerFieldDiffs
  intro s
  refine ⟨⟨_, _, _, exec_eq .cmp64 s, exec_eq .ext64 s, exec_eq .ext64 _, ?_⟩,
    ⟨_, _, _, exec_eq .cmp32 s, exec_eq .ext32 s, exec_eq .ext32 _, ?_⟩⟩
  · simp only [setRegs_regs, commandRegs, fieldDiffs64_cmp64, fieldTriple64_ext64, and_self]
  · simp only [setRegs_regs, commandRegs, fieldDiffs32_cmp32, fieldTriple32_ext32]
    exact ⟨rfl, rfl, rfl⟩

/-- Settles O41: at LA = LB = 64 and at LA = LB = 32 DIFF does what CMP does. -/
theorem compareIsDiffAtFullWidth : Obligations.CompareIsDiffAtFullWidth := by
  unfold Obligations.CompareIsDiffAtFullWidth
  intro s
  exact ⟨⟨_, _, exec_eq .cmp64 s,
      exec_of_commandRegs (diff_eq_cmp64 (g := { s.regs with la := 64, lb := 64 }) rfl rfl), rfl, rfl, rfl⟩,
    ⟨_, _, exec_eq .cmp32 s,
      exec_of_commandRegs (diff_eq_cmp32 (g := { s.regs with la := 32, lb := 32 }) rfl rfl), rfl, rfl, rfl⟩⟩

/-- Settles O38: CMP32's whole effect; OPA_LO and OPB_LO are the registers' low slices. -/
theorem compareBinary32 : Obligations.CompareBinary32 := by
  unfold Obligations.CompareBinary32
  exact ⟨decode_encode .cmp32, fun s => exec_of_commandRegs (cmp32_eq s.regs)⟩

/-- Settles O39: CMP64's whole effect. -/
theorem compareBinary64 : Obligations.CompareBinary64 := by
  unfold Obligations.CompareBinary64
  exact ⟨decode_encode .cmp64, fun s => exec_of_commandRegs (cmp64_eq s.regs)⟩

end Sys2Proof.Machine
end

section
/-! PROOFS of the statements of 60_exceptions.md. First the two ends of a command, by its own check; then the
statements. -/

namespace Sys2Proof.Machine

/-! ### The two ends of a command (60_exceptions.md R190–R192) -/

theorem commandRegs_codeOk_of_succeeds {i : Instr} {g : Regs} (h : succeeds i g = true) :
    statusCode (commandRegs i g).status = StatusCode.ok.bits := by
  rw [commandRegs_statusCode, if_pos h]

/-- `raise Status` writes STATUS and no other register (60_exceptions.md R190). -/
theorem commandRegs_eq_withStatus_of_fails {i : Instr} {g : Regs} (h : succeeds i g = false) :
    commandRegs i g = { g with status := (commandRegs i g).status } := by
  obtain ⟨-, heq⟩ | ⟨-, c, -, -, heq⟩ := commandRegs_of_fails h <;> rw [heq]

/-- ENC, EXT and CMP have no check to fail (60_exceptions.md R192). -/
theorem succeeds_of_enc_ext_cmp {i : Instr} (h : i ∈ [Instr.enc32, .enc64, .ext32, .ext64, .cmp32, .cmp64])
    (g : Regs) : succeeds i g = true := by
  cases i
  case enc32 | enc64 | ext32 | ext64 | cmp32 | cmp64 => rfl
  case dec32 | dec64 | diff | rtv32 | rtv64 => exact absurd h (by decide)

/-! ### The statements of 60_exceptions.md -/

/-- Settles O43: a command whose check passes ends with OK, and one whose check fails only raises STATUS. -/
theorem failedCommandsChangeOnlyStatus : Obligations.FailedCommandsChangeOnlyStatus := by
  unfold Obligations.FailedCommandsChangeOnlyStatus
  intro i s
  refine ⟨_, exec_eq i s, ?_⟩
  rw [setRegs_regs]
  cases hs : succeeds i s.regs with
  | true => exact .inl (commandRegs_codeOk_of_succeeds hs)
  | false => exact .inr (congrArg s.setRegs (commandRegs_eq_withStatus_of_fails hs))

/-- Settles O42: the six commands have no check that could fail. -/
theorem commandsThatCannotFail : Obligations.CommandsThatCannotFail := by
  unfold Obligations.CommandsThatCannotFail
  intro i hi s
  exact ⟨_, exec_eq i s, commandRegs_codeOk_of_succeeds (succeeds_of_enc_ext_cmp hi s.regs)⟩

end Sys2Proof.Machine
end

section
/-! PROOFS of the statements of 70_reset_and_hazards.md. First the layers: what the reset values and a reserved slot
read; a run, one step at a time; the machine that rst holds. Then the statements. -/

namespace Sys2Proof.Machine

/-! ### What the reset values and a reserved slot read (70_reset_and_hazards.md R220, 10_state.md R25) -/

theorem charAt_replicate_zero (k : Nat) : charAt (Vector.replicate 16 0) k = 0 := by
  simp [charAt]

theorem bufWord_replicate_zero (i : Nat) : bufWord (Vector.replicate 16 0) i = 0 := by
  simp only [bufWord, charAt_replicate_zero]
  decide

/-- The character slots by the zero buffer, every other slot by its field, which is the number 0. -/
theorem readReg_reset (r : Reg) : readReg r Regs.reset = 0 := by
  cases r
  case hexIn0 | hexIn1 | hexIn2 | hexIn3 | hexOut0 | hexOut1 | hexOut2 | hexOut3 => exact bufWord_replicate_zero _
  all_goals decide

/-- The slot of a byte offset starts at the multiple of 4 at or below it (20_memory.md R51). -/
theorem toNat_slotOf (off : Offset) : (slotOf off).toNat = 4 * (off.toNat / 4) := by
  have hlane := slotOf_lane (off.toNat / 4) (by omega) (off.toNat % 4) (by omega)
  rw [Nat.div_add_mod, BitVec.ofNat_toNat, BitVec.setWidth_eq] at hlane
  rw [hlane, BitVec.toNat_ofNat]
  omega

/-- Every byte of a reserved slot lies in a slot without a register (10_state.md R25). -/
theorem ofOffset_slotOf_reserved {off : Offset} (h : off = 0x44 ∨ 0x6C ≤ off) : Reg.ofOffset (slotOf off) = none := by
  have hslot := toNat_slotOf off
  refine (ofOffset_eq_none _ (by omega)).mpr ?_
  bv_omega

theorem readSlot_of_ofOffset_none {off : Offset} (h : Reg.ofOffset off = none) (g : Regs) : readSlot off g = 0 := by
  rw [readSlot, h]

/-! ### A run, one step at a time (20_memory.md R61, 70_reset_and_hazards.md R225) -/

theorem core_run_succ {s t : State} (h : step s = .next t) (k : Nat) :
    Host.Core.run core (k + 1) s = Host.Core.run core k t := by
  rw [core_run_eq_run, core_run_eq_run, run, h]

/-! ### With nothing to arrive (70_reset_and_hazards.md R221, R222) -/

theorem step_idle {s : State} (hr : s.rst = false) (hp : s.pending = []) : step s = .next s := by
  rw [step_nil hp]
  simp [idle, hr]

theorem step_held {s : State} (hr : s.rst = true) (hp : s.pending = []) : step s = .next s.holdReset := by
  rw [step_nil hp]
  simp [idle, hr]

/-! ### The statements of 70_reset_and_hazards.md -/

/-- Settles O48, by induction on the number of steps: each takes the first event off the list (`step_cases`). -/
theorem everyRunGoesOn : Obligations.EveryRunGoesOn := by
  unfold Obligations.EveryRunGoesOn
  intro k
  induction k with
  | zero => exact fun s => ⟨s, rfl, rfl⟩
  | succ k ih =>
    intro s
    obtain ⟨t, hstep, htail⟩ := step_cases s
    obtain ⟨u, hrun, hdrop⟩ := ih t
    refine ⟨u, (core_run_succ hstep k).trans hrun, ?_⟩
    rw [hdrop, htail, List.drop_tail]

/-- Settles O1: the registers by `readReg_reset`, the reserved slots since no register lies there. -/
theorem resetLeavesEveryRegisterZero : Obligations.ResetLeavesEveryRegisterZero := by
  unfold Obligations.ResetLeavesEveryRegisterZero
  exact ⟨readReg_reset, rfl, rfl, rfl, rfl, rfl, rfl, rfl, rfl, rfl,
    fun k _ => ⟨charAt_replicate_zero k, charAt_replicate_zero k⟩, rfl, rfl, rfl, rfl, rfl, rfl,
    fun _ g h => readSlot_of_ofOffset_none (ofOffset_slotOf_reserved h) g⟩

/-- Settles O46: the reset values meet the invariant at either level of rst. -/
theorem invariantHoldsAtReset : Obligations.InvariantHoldsAtReset :=
  inv_of_regs_reset rfl

/-- Settles O49: rst at 1 gives every event, and a step without one, the same answer, `State.holdReset`. -/
theorem resetHoldsTheMachine : Obligations.ResetHoldsTheMachine := by
  unfold Obligations.ResetHoldsTheMachine
  refine ⟨fun _ _ => rfl, fun s q hr => ?_, fun s hr => ?_, fun _ => step_held⟩
  · simp [handle, hr, State.holdReset]
  · simp [handle, hr, State.holdReset]

/-- Settles O50, by induction on the number of steps, each of which answers the machine it is given. -/
theorem idleMachineOnlyWaits : Obligations.IdleMachineOnlyWaits := by
  unfold Obligations.IdleMachineOnlyWaits
  intro k s hr hp
  induction k with
  | zero => rfl
  | succ k ih => exact (core_run_succ (step_idle hr hp) k).trans ih

end Sys2Proof.Machine
end
